-- ==== Sys2Proof/Word.lean ====
section
/-! DEFINITION. The word types: a byte, and the 16-bit value of the wide checksum (00_scope.md R11). -/

namespace Sys2Proof

/-- "A *byte* is an unsigned 8-bit value, 0 to 255" (R11). -/
abbrev Byte := BitVec 8

/-- The 16-bit values: `ACC16` and the checksum of variant `V16` (10_state.md R23). -/
abbrev Half := BitVec 16

end Sys2Proof
end

