-- ==== Sys2Proof/Config.lean ====
section
/-! DEFINITION. What is fixed when the block is instantiated: the protocol variant's names, the buffer profile, and the three
OPEN parameters of 00_scope.md R9, which the model takes as one field of its state (log 3). -/

namespace Sys2Proof

/-- The two protocol variants (00_scope.md R2). -/
inductive Variant where
  | v8
  | v16
deriving DecidableEq, Repr

/-- `PROFILE`: who owns the receive buffer (00_scope.md R9, 92_eei_decisions.md D2). -/
inductive Profile where
  | pure
  | owned
deriving DecidableEq, Repr

/-- The OPEN parameters of 00_scope.md R9. -/
structure Config where
  /-- `PROFILE` -/
  profile : Profile
  /-- `BUFCAP`, `none` for unbounded (D11). -/
  bufcap : Option Nat
  /-- `CMDW`, `none` for a mathematical integer (D8). -/
  cmdw : Option Nat
deriving DecidableEq, Repr

/-- The parameters' defaults. R9 gives `BUFCAP` and `CMDW` one; `PROFILE` has none, and the model names OWNED
(DESIGN CHOICE, log 3). -/
def Config.default : Config := { profile := .owned, bufcap := none, cmdw := none }

end Sys2Proof
end

