-- ==== Sys2Proof/Machine/Constants.lean ====
section
/-! DEFINITION. The hardwired constants of 10_state.md R21 and the size constants of 00_scope.md R9. -/

namespace Sys2Proof.Machine

/-- `HEAD1` -/
def head1 : Byte := 0xAA#8

/-- `HEAD2` -/
def head2 : Byte := 0xBB#8

/-- `POLY8` -/
def poly8 : Byte := 0x31#8

/-- `INIT8` -/
def init8 : Byte := 0x00#8

/-- `POLY16`: "names the CRC-16 polynomial; not itself XORed". -/
def poly16 : Half := 0x8005#16

/-- `POLY16R`: "the constant XORed after a right shift" (90_conflicts.md C2; log 10). -/
def poly16r : Half := 0xA001#16

/-- `INIT16` -/
def init16 : Half := 0xFFFF#16

/-- `CK(v)`: checksum bytes on the wire. -/
def ckSize : Variant → Nat
  | .v8 => 1
  | .v16 => 2

/-- `MIN(v)`: "two header bytes + command + length + checksum" (30_encoding.md R84). -/
def minSize : Variant → Nat
  | .v8 => 5
  | .v16 => 6

/-- `MAX(v)`, by the layout (90_conflicts.md C3). -/
def maxSize : Variant → Nat
  | .v8 => 260
  | .v16 => 261

/-- `LENMAX` -/
def lenMax : Nat := 255

/-- `CMDMAX` -/
def cmdMax : Int := 255

end Sys2Proof.Machine
end

