-- ==== Sys2Proof/Machine/Interface.lean ====
section
/-! DEFINITION. What crosses the block's boundary: requests in, responses out (30_encoding.md R90 to R96, 10_state.md R38 to R40). -/

namespace Sys2Proof

/-- A checksum value: "8 bits in `V8` and 16 bits in `V16`" (10_state.md R38). -/
inductive Checksum where
  | c8 (k : Byte)
  | c16 (k : Half)
deriving DecidableEq, Repr

/-- A *Frame* (10_state.md R38): "two Frames are equal exactly when their fields are equal". The payload length is no field. -/
structure Frame where
  command : Byte
  payload : List Byte
  checksum : Checksum
deriving DecidableEq, Repr

/-- The diagnostic `REASON` of a `DecodeFailure` (30_encoding.md R96). -/
inductive Reason where
  | tooShort
  | headerMismatch
  | lengthExceedsSpan
  | checksumMismatch
deriving DecidableEq, Repr

/-- What a `Done` carries (10_state.md R39). -/
inductive Result where
  /-- `FEED`, `TRIM`, `CLEAR` carry nothing. -/
  | nothing
  /-- `CRC8`. -/
  | sum8 (k : Byte)
  /-- `CRC16`. -/
  | sum16 (k : Half)
  /-- `ENC8`, `ENC16`: `WIRE` (R40). -/
  | wire (bytes : List Byte)
  /-- `DEC8`, `DEC16`. -/
  | frame (f : Frame)
deriving DecidableEq, Repr

/-- The outcomes of 60_exceptions.md R230 with their results (R39). -/
inductive Response where
  | done (r : Result)
  | invalidArgument
  | decodeFailure (reason : Reason)
  | needMoreData
  | frameFound (f : Frame) (consumed : Nat)
  | noFrameDiscard (n : Nat)
  | illegalOp
  | bufferFull
  | trimRange
deriving DecidableEq, Repr

/-- The operands presented with a request: the integer, the byte sequence and the natural number of 30_encoding.md R92. An
operation reads the ones its row of R92 names; how they are carried is not specified (N1), and three ports are the model's
(DESIGN CHOICE, log 12). -/
structure Operands where
  command : Int := 0
  bytes : List Byte := []
  count : Nat := 0
deriving DecidableEq, Repr

/-- One input to the block: "a 4-bit operation code `OP[3:0]` together with the operands the operation takes" (R90), or a
span from the link in the wire format of a variant, of which "A receiver must be told the variant" (R89; log 6). -/
inductive Request where
  | op (code : BitVec 4) (operands : Operands)
  | wire (v : Variant) (bytes : List Byte)
deriving DecidableEq, Repr

end Sys2Proof
end

