-- ==== Sys2Proof/Machine/Bytes.lean ====
section
/-! DEFINITION. Byte sequences: the one-byte read, spans, the byte order of the wide checksum, and the frame layout
(20_memory.md R50 to R59, 30_encoding.md R80 to R85). -/

namespace Sys2Proof.Machine

/-- `MemRead(S, k, 1)`: the byte `S[k]`, "defined only for `k < len(S)`" (00_scope.md R13, 20_memory.md R59). -/
def memRead (S : List Byte) (k : Nat) : Option Byte := S[k]?

/-- `S[k]` in a rule that has just made sure that `k < len(S)`; 0 outside the sequence, where no rule reads. -/
def byteAt (S : List Byte) (k : Nat) : Byte := S.getD k 0

/-- The `n` bytes `S[a .. a+n)`, "only written where `a <= b <= len(S)`" (00_scope.md R12). -/
def readSpan (S : List Byte) (a n : Nat) : Option (List Byte) :=
  if a + n ≤ S.length then some ((S.drop a).take n) else none

/-- Bits 15 to 8 (`CRC16_HI`, 20_memory.md R53). -/
def hiByte (k : Half) : Byte := (k >>> 8).setWidth 8

/-- Bits 7 to 0 (`CRC16_LO`). -/
def loByte (k : Half) : Byte := k.setWidth 8

/-- `(B[4+N] << 8) | B[5+N]` in 16 bits (30_encoding.md R85): the byte at the lower offset is the high one. -/
def joinBytes (hi lo : Byte) : Half := (hi.setWidth 16 <<< 8) ||| lo.setWidth 16

/-- `checksum_bytes`: one byte, or two with the high byte first (30_encoding.md R85). -/
def checksumBytes : Checksum → List Byte
  | .c8 k => [k]
  | .c16 k => [hiByte k, loByte k]

/-- `WIRECK` of the frame whose checksum stands at offset `a` (30_encoding.md R85). -/
def readChecksum (v : Variant) (S : List Byte) (a : Nat) : Option Checksum :=
  match v with
  | .v8 => (memRead S a).map Checksum.c8
  | .v16 => (memRead S a).bind fun hi => (memRead S (a + 1)).map fun lo => Checksum.c16 (joinBytes hi lo)

/-- The LEN byte of a payload, its length in one byte (30_encoding.md R82). -/
def lenByte (payload : List Byte) : Byte := BitVec.ofNat 8 payload.length

/-- The bytes the checksum covers: "`CMD ++ LEN ++ PAYLOAD`" (30_encoding.md R83). -/
def covered (command : Byte) (payload : List Byte) : List Byte := [command, lenByte payload] ++ payload

/-- The frame layout of formats `F8` and `F16` (30_encoding.md R80, R81). -/
def layout (command : Byte) (payload : List Byte) (ck : Checksum) : List Byte :=
  [head1, head2] ++ covered command payload ++ checksumBytes ck

end Sys2Proof.Machine
end

