-- ==== Sys2Proof/Syntax.lean ====
section
/-! DEFINITION. The operations, one constructor per row of spec/opcode_table.json, with the operands of 30_encoding.md R92,
and the source's own names for them (R98). -/

namespace Sys2Proof

/-- The rows of the opcode table: thirteen operations and three reserved codes (30_encoding.md R91), and the two wire
formats (R80, R81), which reach the block as a span from the link (log 6). -/
inductive Instr where
  /-- `CRC8 DATA` (40_checksum.md R113). -/
  | crc8 (data : List Byte)
  /-- `CRC16 DATA` (R120). -/
  | crc16 (data : List Byte)
  /-- `ENC8 command, PAYLOAD` (41_frame_codec.md R142). -/
  | enc8 (command : Int) (payload : List Byte)
  /-- `ENC16 command, PAYLOAD` (R143). -/
  | enc16 (command : Int) (payload : List Byte)
  /-- `DEC8 BYTES` (R151). -/
  | dec8 (bytes : List Byte)
  /-- `DEC16 BYTES` (R152). -/
  | dec16 (bytes : List Byte)
  /-- `SCAN8 BUF` (42_defragmenter.md R172). -/
  | scan8 (buf : List Byte)
  /-- `SCAN16 BUF` (R173). -/
  | scan16 (buf : List Byte)
  /-- `FEED CHUNK` (43_owned_buffer.md R215). -/
  | feed (chunk : List Byte)
  /-- `TRIM k` (R216). -/
  | trim (k : Nat)
  /-- `NEXT8` (R218). -/
  | next8
  /-- `NEXT16` (R219). -/
  | next16
  /-- `CLEAR` (R220). -/
  | clear
  /-- Reserved code `0xD` (30_encoding.md R93). -/
  | reservedD
  /-- Reserved code `0xE` (R93). -/
  | reservedE
  /-- Reserved code `0xF` (R93). -/
  | reservedF
  /-- Format `F8` (R80): the CMD field, the payload (whose length is the LEN field) and the checksum byte. -/
  | frame8 (command : Byte) (payload : List Byte) (ck : Byte)
  /-- Format `F16` (R81). -/
  | frame16 (command : Byte) (payload : List Byte) (ck : Half)
deriving DecidableEq, Repr

/-! The pseudo-operations of R98: each of the source's names, expanded by the deployment's variant. -/

/-- `checksum(data)`. -/
def Instr.checksumOp : Variant → List Byte → Instr
  | .v8, data => .crc8 data
  | .v16, data => .crc16 data

/-- `encode(command, payload)`. -/
def Instr.encodeOp : Variant → Int → List Byte → Instr
  | .v8, c, p => .enc8 c p
  | .v16, c, p => .enc16 c p

/-- `decode(bytes)`. -/
def Instr.decodeOp : Variant → List Byte → Instr
  | .v8, b => .dec8 b
  | .v16, b => .dec16 b

/-- `scan(buffer)`. -/
def Instr.scanOp : Variant → List Byte → Instr
  | .v8, b => .scan8 b
  | .v16, b => .scan16 b

/-- `feed(bytes)`. -/
def Instr.feedOp (bytes : List Byte) : Instr := .feed bytes

/-- `next_frame()`; its result is read by `Response.nextFrame` (Machine/Caller.lean). -/
def Instr.nextOp : Variant → Instr
  | .v8 => .next8
  | .v16 => .next16

end Sys2Proof
end

