-- ==== Sys2Proof/WellFormed.lean ====
section
/-! DEFINITION. Which terms of Instr can exist outside the model. A request may carry any operand (a bad one is answered, not
ill-formed); a frame's payload must fit its one-byte LEN field, and a command must fit the port it is presented on. -/

namespace Sys2Proof

/-- A wire frame's LEN field is one byte, so a payload has at most 255 bytes (30_encoding.md R82). Every request is
well-formed: "There are no hint encodings" and the only illegal codes have constructors of their own (R93). -/
def Instr.wellFormed : Instr → Bool
  | .crc8 _ | .crc16 _ | .enc8 _ _ | .enc16 _ _ | .dec8 _ | .dec16 _ | .scan8 _ | .scan16 _ => true
  | .feed _ | .trim _ | .next8 | .next16 | .clear | .reservedD | .reservedE | .reservedF => true
  | .frame8 _ payload _ => decide (payload.length ≤ 255)
  | .frame16 _ payload _ => decide (payload.length ≤ 255)

/-- An integer that can be presented on a command port of the given width: any integer on the default port, an unsigned
`w`-bit number on a port of `w` bits (00_scope.md R9, R11, D8). -/
def commandFits : Option Nat → Int → Bool
  | none, _ => true
  | some w, c => decide (0 ≤ c) && decide (c < 2 ^ w)

/-- Whether the request can be posed to a block with command width `cmdw` ("With `CMDW = 8` the first two and the last cannot
be posed", 95_test_vectors.md T30). -/
def Instr.posable (cmdw : Option Nat) : Instr → Bool
  | .enc8 c _ => commandFits cmdw c
  | .enc16 c _ => commandFits cmdw c
  | .crc8 _ | .crc16 _ | .dec8 _ | .dec16 _ | .scan8 _ | .scan16 _ => true
  | .feed _ | .trim _ | .next8 | .next16 | .clear | .reservedD | .reservedE | .reservedF => true
  | .frame8 _ _ _ | .frame16 _ _ _ => true

end Sys2Proof
end

