-- ==== Sys2Proof/Decode.lean ====
section
/-! DEFINITION. From an input of the block to an instruction, and back. An operation request is told by its 4-bit code
(30_encoding.md R91), every code of which has a meaning; a span from the link is told by its header, its LEN byte and its variant
(R80 to R89), and one that is too short or has no header is rejected by the reason's name (R96). -/

namespace Sys2Proof

open Sys2Proof.Machine

/-- The table of 30_encoding.md R91, with the operands R92 gives each operation. -/
def decodeOp (code : BitVec 4) (o : Operands) : Instr :=
  match code.toNat with
  | 0x0 => .crc8 o.bytes
  | 0x1 => .crc16 o.bytes
  | 0x2 => .enc8 o.command o.bytes
  | 0x3 => .enc16 o.command o.bytes
  | 0x4 => .dec8 o.bytes
  | 0x5 => .dec16 o.bytes
  | 0x6 => .scan8 o.bytes
  | 0x7 => .scan16 o.bytes
  | 0x8 => .feed o.bytes
  | 0x9 => .trim o.count
  | 0xA => .next8
  | 0xB => .next16
  | 0xC => .clear
  | 0xD => .reservedD
  | 0xE => .reservedE
  | _ => .reservedF

/-- The instruction of a frame of a known variant, its fields read (30_encoding.md R82). -/
def frameInstr (command : Byte) (payload : List Byte) : Checksum → Instr
  | .c8 k => .frame8 command payload k
  | .c16 k => .frame16 command payload k

/-- A span from the link, read as a frame of variant `v`: the tests of 41_frame_codec.md R149 that concern the encoding, in
R149's order, and the bytes after the frame. The checksum is a field here; whether it matches is the instruction's meaning. -/
def decodeWire (v : Variant) (bytes : List Byte) : Except Reason (Instr × List Byte) :=
  if bytes.length < minSize v then .error .tooShort
  else if byteAt bytes 0 ≠ head1 ∨ byteAt bytes 1 ≠ head2 then .error .headerMismatch
  else
    let n := (byteAt bytes 3).toNat
    match readSpan bytes 4 n, readChecksum v bytes (4 + n) with
    | some payload, some ck => .ok (frameInstr (byteAt bytes 2) payload ck, bytes.drop (minSize v + n))
    | _, _ => .error .lengthExceedsSpan

/-- The instruction an input of the block stands for. "Bytes of `BYTES` beyond the frame are tolerated and ignored" (R153). -/
def decode : Request → Except Reason Instr
  | .op code o => .ok (decodeOp code o)
  | .wire v bytes => (decodeWire v bytes).map Prod.fst

/-- The input that stands for an instruction, from the same tables: R91 and R92 for the requests, the layouts R80 and R81 for the
frames. -/
def encode : Instr → Request
  | .crc8 data => .op 0x0#4 { bytes := data }
  | .crc16 data => .op 0x1#4 { bytes := data }
  | .enc8 command payload => .op 0x2#4 { command := command, bytes := payload }
  | .enc16 command payload => .op 0x3#4 { command := command, bytes := payload }
  | .dec8 bytes => .op 0x4#4 { bytes := bytes }
  | .dec16 bytes => .op 0x5#4 { bytes := bytes }
  | .scan8 buf => .op 0x6#4 { bytes := buf }
  | .scan16 buf => .op 0x7#4 { bytes := buf }
  | .feed chunk => .op 0x8#4 { bytes := chunk }
  | .trim k => .op 0x9#4 { count := k }
  | .next8 => .op 0xA#4 {}
  | .next16 => .op 0xB#4 {}
  | .clear => .op 0xC#4 {}
  | .reservedD => .op 0xD#4 {}
  | .reservedE => .op 0xE#4 {}
  | .reservedF => .op 0xF#4 {}
  | .frame8 command payload ck => .wire .v8 (layout command payload (.c8 ck))
  | .frame16 command payload ck => .wire .v16 (layout command payload (.c16 ck))

/-- The input that a word of spec/opcode_table.json names. A row of format op4 gives 4 bits, `OP`, and its operands are then zero
(the empty sequence, 0). A row of 32 bits is a frame's first four bytes, "offset 0 most significant" (30_encoding.md R82), and
every byte after them is zero, up to the longest frame. FRAME8 and FRAME16 have the same words ("The two formats cannot be told apart
from the bytes", R89); the word is read as `V8` (DESIGN CHOICE, log 7), and bits above `OP` are not read (log 21). -/
def requestOfWord (nbits w : Nat) : Request :=
  if nbits < 32 then .op (BitVec.ofNat 4 w) {}
  else .wire .v8 ([BitVec.ofNat 8 (w >>> 24), BitVec.ofNat 8 (w >>> 16), BitVec.ofNat 8 (w >>> 8), BitVec.ofNat 8 w] ++
    List.replicate 257 0#8)

/-- The instruction the decoder reads from a table word. -/
def decodeTableWord (nbits w : Nat) : Option Instr := (decode (requestOfWord nbits w)).toOption

end Sys2Proof
end

