-- ==== Sys2Proof/Machine/State.lean ====
section
/-! DEFINITION. The state of the block (10_state.md R20): working registers, the receive buffer, and the model's own ports and
parameters; the reasons a step can stop; reset (R42). -/

namespace Sys2Proof.Machine

/-- `PH`, the phase of the defragmenter's finite-state machine (10_state.md R31). -/
inductive Phase where
  | idle
  | minchk
  | hunt
  | span
  | sum
  | cmp
  | tNeed
  | tFound
  | tDiscard
deriving DecidableEq, Repr

/-- The working registers (10_state.md R22 to R32), "each written at the start of the operation that uses it before it is read, and
dead when the operation responds" (R20). What they hold between operations is what the last rule that wrote them left (log 5). -/
structure Work where
  /-- `ACC8` (R22) -/
  acc8 : Byte
  /-- `ACC16` (R23) -/
  acc16 : Half
  /-- `BITCNT`, 0 to 8 (R24) -/
  bitcnt : Nat
  /-- `POS` (R25) -/
  pos : Nat
  /-- `N` (R26) -/
  n : Byte
  /-- `SIZE` (R26) -/
  size : Nat
  /-- `REM` (R26) -/
  rem : Nat
  /-- `I`, the scan index (R30) -/
  i : Nat
  /-- `PH` (R31) -/
  ph : Phase
  /-- `L` (R32) -/
  l : Nat
deriving DecidableEq, Repr

/-- The state. `work` and `rxbuf` are the block's (10_state.md R20); `cfg`, `requests` and `response` are the model's own: the OPEN
parameters (log 3), the requests issued and not yet served (log 1), and what the last step answered (log 2). -/
structure State where
  cfg : Config
  work : Work
  /-- `RXBUF`, oldest byte first (R36); empty in profile PURE, where it is no state (R37, log 20). -/
  rxbuf : List Byte
  requests : List Request
  response : Option Response
deriving DecidableEq, Repr

/-- Reasons a step stops. Neither is ever raised; they are there so that the register-level rules read as the spec writes them. -/
inductive Fault where
  /-- A read outside a byte sequence, raised by the decoder and the scan. "A model in which an out-of-range read faults will never see
  that fault raised by these rules" (20_memory.md R59). Safe. -/
  | readOutOfRange
  /-- The scan's machine has made more phases than any scan makes, raised by the scan. A scan "always ends" (42_defragmenter.md R191).
  Safe. -/
  | scanUnfinished
deriving DecidableEq, Repr

/-- Reasons a step has no meaning. -/
inductive Refusal where
  /-- An instruction that has no meaning yet, raised by exec's arm for it; no arm does. Safe. -/
  | notModelled (mnemonic : String)
deriving DecidableEq, Repr

/-- The working registers after reset. `PH` is `IDLE` (10_state.md R42); the others are "unspecified", and the model names zero
(DESIGN CHOICE, log 4). -/
def Work.reset : Work :=
  { acc8 := 0#8, acc16 := 0#16, bitcnt := 0, pos := 0, n := 0#8, size := 0, rem := 0, i := 0, ph := .idle, l := 0 }

/-- Reset of a block with the given parameters (10_state.md R42, 70_reset_and_hazards.md R260): `PH = IDLE`, `RXBUF` empty, no
response, and no request issued yet. -/
def State.resetWith (cfg : Config) : State :=
  { cfg := cfg, work := Work.reset, rxbuf := [], requests := [], response := none }

/-- Reset with the default parameters (log 3). -/
def State.reset : State := State.resetWith Config.default

end Sys2Proof.Machine
end

