-- ==== Sys2Proof/Machine/Ops.lean ====
section
/-! DEFINITION. The operations every meaning is built from: the updates of the state, the response, the error entry
(60_exceptions.md R236), and the operations on `RXBUF` (10_state.md R36). -/

namespace Sys2Proof.Machine

/-- What a meaning answers. -/
abbrev Answer := Host.Outcome State Fault Refusal

/-- Replace the working registers. -/
def State.setWork (s : State) (w : Work) : State := { s with work := w }

/-- Put a response on the response port. -/
def State.setResponse (s : State) (r : Response) : State := { s with response := some r }

/-- Replace the receive buffer. -/
def State.setRxbuf (s : State) (b : List Byte) : State := { s with rxbuf := b }

/-- Replace the requests not yet served. -/
def State.setRequests (s : State) (q : List Request) : State := { s with requests := q }

/-- End an operation with a response, the working registers as it left them (00_scope.md R14). -/
def respond (r : Response) (w : Work) (s : State) : Answer := .next ((s.setWork w).setResponse r)

/-- Error entry (60_exceptions.md R236): an operation that ends in an error "writes nothing"; "Nothing is saved anywhere, there is no
handler inside the block, no mode changes and control goes nowhere: the response simply carries the error tag back to the caller". -/
def raiseError (e : Response) (s : State) : Answer := .next (s.setResponse e)

/-- Error return (60_exceptions.md R237): "There is no return-from-trap operation because nothing was entered." The state the next
request is served in is the state itself. -/
def returnFromError (s : State) : State := s

/-- End an operation that may have read outside a sequence (20_memory.md R59) or run past its bound (42_defragmenter.md R191). -/
def conclude (run : Except Fault (Response × Work)) (s : State) : Answer :=
  match run with
  | .ok (r, w) => respond r w s
  | .error f => .fault f

/-- A read's byte, or the fault of a read outside its sequence. -/
def orFault {α : Type} : Option α → Except Fault α
  | some a => .ok a
  | none => .error .readOutOfRange

/-- `RXBUF` would exceed `BUFCAP` with `k` more bytes (43_owned_buffer.md R215). -/
def overflows (cap : Option Nat) (rxlen k : Nat) : Bool :=
  match cap with
  | none => false
  | some c => decide (c < rxlen + k)

/-- `0 <= RXLEN <= BUFCAP` (10_state.md R36). -/
def rxbufFits (cap : Option Nat) (b : List Byte) : Bool := !overflows cap b.length 0

/-- `RXBUF ++ CHUNK` (43_owned_buffer.md R215). -/
def appendChunk (b chunk : List Byte) : List Byte := b ++ chunk

/-- `RXBUF[k .. RXLEN)` (43_owned_buffer.md R216). -/
def dropFront (k : Nat) (b : List Byte) : List Byte := b.drop k

/-- The trim an outcome orders, on a buffer (43_owned_buffer.md R217, R211 to R213). -/
def trimOrdered (r : Response) (b : List Byte) : List Byte :=
  match r with
  | .frameFound _ consumed => dropFront consumed b
  | .noFrameDiscard n => dropFront n b
  | .needMoreData => b
  | .done _ | .invalidArgument | .decodeFailure _ | .illegalOp | .bufferFull | .trimRange => b

/-- Profile PURE has no buffer: its codes `0x8` to `0xC` are "answered `IllegalOp`" (30_encoding.md R93). -/
def inOwned (s : State) (body : Answer) : Answer :=
  match s.cfg.profile with
  | .owned => body
  | .pure => raiseError .illegalOp s

end Sys2Proof.Machine
end

