-- ==== Sys2Proof/Machine/Checksum.lean ====
section
/-! DEFINITION. The Checksum Engine: the functions `crc8` and `crc16` (40_checksum.md R110 to R126), the same computation on the
working registers, and the operations `CRC8` and `CRC16`. -/

namespace Sys2Proof.Machine

/-- One of the 8 iterations of R112: "if the top bit is set, shift left and XOR with the polynomial, else shift left". -/
def shift8 (a : Byte) : Byte := if a.msb then (a <<< 1) ^^^ poly8 else a <<< 1

/-- One of the 8 iterations of R119: "if the bottom bit is set, shift right and XOR with the polynomial, else shift right". -/
def shift16 (a : Half) : Half := if a.getLsbD 0 then (a >>> 1) ^^^ poly16r else a >>> 1

/-- `f` done `k` times. -/
def times {α : Type} (f : α → α) : Nat → α → α
  | 0, a => a
  | k + 1, a => times f k (f a)

/-- `step8(a, b)` (R112). -/
def step8 (a b : Byte) : Byte := times shift8 8 (a ^^^ b)

/-- `step16(a, b)` (R119). -/
def step16 (a : Half) (b : Byte) : Half := times shift16 8 (a ^^^ b.setWidth 16)

/-- `crc8(DATA)` (R113). -/
def crc8 (data : List Byte) : Byte := data.foldl step8 init8

/-- `crc16(DATA)` (R120). -/
def crc16 (data : List Byte) : Half := data.foldl step16 init16

/-- `crc(v)` (41_frame_codec.md): `crc8` for `V8`, `crc16` for `V16`. -/
def crc (v : Variant) (data : List Byte) : Checksum :=
  match v with
  | .v8 => .c8 (crc8 data)
  | .v16 => .c16 (crc16 data)

/-! The same on the working registers: `ACC8` or `ACC16`, `BITCNT` and `POS` (10_state.md R22 to R25). -/

/-- `k a`, the value of `a` found first. It is `k a` (Laws/Checksum.lean); the match makes Lean's kernel evaluate a long computation byte
by byte, where it would otherwise stack all of it up. -/
def computed {w : Nat} {α : Type} (a : BitVec w) (k : BitVec w → α) : α :=
  match a.toNat with
  | 0 => k 0#w
  | n + 1 => k (BitVec.ofNat w (n + 1))

/-- The registers of one checksum computation: the accumulator, `BITCNT` and `POS`. -/
structure Lane (w : Nat) where
  acc : BitVec w
  bitcnt : Nat
  pos : Nat
deriving DecidableEq, Repr

/-- One bit iteration: the accumulator shifts and `BITCNT` is "incremented once per iteration" (10_state.md R24). -/
def Lane.bit {w : Nat} (f : BitVec w → BitVec w) (q : Lane w) : Lane w := { q with acc := f q.acc, bitcnt := q.bitcnt + 1 }

/-- One byte: XORed in with `BITCNT` "Set to 0", eight iterations, and `POS` one on (10_state.md R24, R25). -/
def Lane.byte {w : Nat} (f : BitVec w → BitVec w) (q : Lane w) (b : Byte) : Lane w :=
  let q := times (Lane.bit f) 8 { q with acc := q.acc ^^^ b.setWidth w, bitcnt := 0 }
  { q with pos := q.pos + 1 }

/-- Every byte, left to right, offset 0 first (R113, R120). -/
def Lane.bytes {w : Nat} (f : BitVec w → BitVec w) : List Byte → Lane w → Lane w
  | [], q => q
  | b :: data, q => computed (q.byte f b).acc fun acc => Lane.bytes f data { q.byte f b with acc := acc }

/-- A checksum computation of variant `v` over `data`, on the working registers: the accumulator set to its initial value, `POS` to
0, and every byte taken left to right (R113, R120, 70_reset_and_hazards.md R261). -/
def Work.runCrc (v : Variant) (data : List Byte) (w : Work) : Work :=
  match v with
  | .v8 =>
    let q := Lane.bytes shift8 data { acc := init8, bitcnt := w.bitcnt, pos := 0 }
    { w with acc8 := q.acc, bitcnt := q.bitcnt, pos := q.pos }
  | .v16 =>
    let q := Lane.bytes shift16 data { acc := init16, bitcnt := w.bitcnt, pos := 0 }
    { w with acc16 := q.acc, bitcnt := q.bitcnt, pos := q.pos }

/-- The accumulator of variant `v`: "Its value when a computation ends is the checksum" (10_state.md R22, R23). -/
def Work.acc (w : Work) : Variant → Checksum
  | .v8 => .c8 w.acc8
  | .v16 => .c16 w.acc16

/-- `CRC8(DATA) -> Done(crc8(DATA))` (R113). -/
def execCrc8 (data : List Byte) (s : State) : Answer :=
  let w := s.work.runCrc .v8 data
  respond (.done (.sum8 w.acc8)) w s

/-- `CRC16(DATA) -> Done(crc16(DATA))` (R120). -/
def execCrc16 (data : List Byte) (s : State) : Answer :=
  let w := s.work.runCrc .v16 data
  respond (.done (.sum16 w.acc16)) w s

end Sys2Proof.Machine
end

