-- ==== Sys2Proof/Machine/Scan.lean ====
section
/-! DEFINITION. The Stream Defragmenter (42_defragmenter.md): the scan as one function (R171), the finite-state machine on the working
registers (R180 to R188), which the operations run, and the closed form (R190). -/

namespace Sys2Proof.Machine

/-! ## The scan as one function (R171) -/

/-- A header match (00_scope.md R16). -/
def isHeader (a b : Byte) : Bool := decide (a = head1) && decide (b = head2)

/-- What R171 does at a header match at offset `i`, of whose bytes `suf` are the rest of the buffer: lines (b), (c) and (d), or
`none` at line (e), a rejected candidate. `REM` is the length of `suf` (D27). -/
def judge (v : Variant) (i : Nat) (suf : List Byte) : Option Response :=
  if suf.length < minSize v then some .needMoreData
  else
    let n := (byteAt suf 3).toNat
    if suf.length < minSize v + n then some .needMoreData
    else
      let k := crc v ((suf.drop 2).take (2 + n))
      if readChecksum v suf (4 + n) = some k then
        some (.frameFound { command := byteAt suf 2, payload := (suf.drop 4).take n, checksum := k } (i + minSize v + n))
      else none

/-- The walk of R171 from offset `i`, the bytes from there on given: line (f) moves on "by exactly one byte", lines (g) and (h) end
it. -/
def scanFrom (v : Variant) : Nat → List Byte → Response
  | i, a :: b :: rest =>
    if isHeader a b then
      match judge v i (a :: b :: rest) with
      | some r => r
      | none => scanFrom v (i + 1) (b :: rest)
    else scanFrom v (i + 1) (b :: rest)
  | i, [a] => if a = head1 then .noFrameDiscard i else .noFrameDiscard (i + 1)
  | i, [] => .noFrameDiscard i

/-- `scan(v, BUF)` (R171). -/
def scan (v : Variant) (buf : List Byte) : Response :=
  if buf.length < minSize v then .needMoreData else scanFrom v 0 buf

/-! ## The finite-state machine (R180 to R188) -/

/-- Phase `IDLE` on a request (R180): `L <- len(BUF)`, go to `MINCHK`. -/
def phaseIdle (buf : List Byte) (w : Work) : Work := { w with l := buf.length, ph := .minchk }

/-- Phase `MINCHK` (R181). -/
def phaseMinchk (v : Variant) (w : Work) : Work :=
  if w.l < minSize v then { w with ph := .tNeed } else { w with i := 0, ph := .hunt }

/-- Phase `HUNT` (R182). -/
def phaseHunt (buf : List Byte) (w : Work) : Except Fault Work :=
  if w.l ≤ w.i + 1 then .ok { w with ph := .tDiscard }
  else do
    let a ← orFault (memRead buf w.i)
    let b ← orFault (memRead buf (w.i + 1))
    if isHeader a b then .ok { w with ph := .span } else .ok { w with i := w.i + 1 }

/-- Phase `SPAN` (R183). -/
def phaseSpan (v : Variant) (buf : List Byte) (w : Work) : Except Fault Work :=
  let w := { w with rem := w.l - w.i }
  if w.rem < minSize v then .ok { w with ph := .tNeed }
  else do
    let n ← orFault (memRead buf (w.i + 3))
    let w := { w with n := n, size := minSize v + n.toNat }
    if w.rem < w.size then .ok { w with ph := .tNeed } else .ok { w with ph := .sum }

/-- Phase `SUM` (R184): the checksum of the `2 + N` bytes `BUF[I+2]` to `BUF[I+3+N]`. -/
def phaseSum (v : Variant) (buf : List Byte) (w : Work) : Except Fault Work := do
  let body ← orFault (readSpan buf (w.i + 2) (2 + w.n.toNat))
  .ok { w.runCrc v body with ph := .cmp }

/-- Phase `CMP` (R185); the second branch is the resynchronisation transition. -/
def phaseCmp (v : Variant) (buf : List Byte) (w : Work) : Except Fault Work := do
  let wireck ← orFault (readChecksum v buf (w.i + 4 + w.n.toNat))
  if w.acc v = wireck then .ok { w with ph := .tFound } else .ok { w with i := w.i + 1, ph := .hunt }

/-- What a terminal phase responds (R186 to R188); nothing in another phase. -/
def terminalResponse (v : Variant) (buf : List Byte) (w : Work) : Except Fault (Option Response) :=
  match w.ph with
  | .tNeed => .ok (some .needMoreData)
  | .tFound => do
    let command ← orFault (memRead buf (w.i + 2))
    let payload ← orFault (readSpan buf (w.i + 4) w.n.toNat)
    let wireck ← orFault (readChecksum v buf (w.i + 4 + w.n.toNat))
    .ok (some (.frameFound { command := command, payload := payload, checksum := wireck } (w.i + w.size)))
  | .tDiscard => do
    let last ← orFault (memRead buf (w.l - 1))
    .ok (some (.noFrameDiscard (if last = head1 then w.l - 1 else w.l)))
  | .idle | .minchk | .hunt | .span | .sum | .cmp => .ok none

/-- One phase of the machine that is not terminal (R180 to R185); a terminal phase goes to `IDLE` (R186 to R188). -/
def phaseStep (v : Variant) (buf : List Byte) (w : Work) : Except Fault Work :=
  match w.ph with
  | .idle => .ok (phaseIdle buf w)
  | .minchk => .ok (phaseMinchk v w)
  | .hunt => phaseHunt buf w
  | .span => phaseSpan v buf w
  | .sum => phaseSum v buf w
  | .cmp => phaseCmp v buf w
  | .tNeed | .tFound | .tDiscard => .ok { w with ph := .idle }

/-- The machine run until a terminal phase responds, for at most `fuel` phases. -/
def runPhases (v : Variant) (buf : List Byte) : Nat → Work → Except Fault (Response × Work)
  | 0, _ => .error .scanUnfinished
  | fuel + 1, w => do
    let r ← terminalResponse v buf w
    let w' ← phaseStep v buf w
    match r with
    | some r => .ok (r, w')
    | none => runPhases v buf fuel w'

/-- The most phases one scan makes: at each offset at most HUNT, SPAN, SUM and CMP, and IDLE, MINCHK and a terminal besides
(42_defragmenter.md R191: "at most `L - 1` header tests"). -/
def phaseBound (buf : List Byte) : Nat := 4 * buf.length + 4

/-- One scan on the working registers, "one run from `IDLE` back to `IDLE`" (42_defragmenter.md part 5). -/
def runScan (v : Variant) (buf : List Byte) (w : Work) : Except Fault (Response × Work) :=
  runPhases v buf (phaseBound buf) { w with ph := .idle }

/-- `SCAN8(BUF)` (R172): "State written: none; `BUF` is not modified". -/
def execScan8 (buf : List Byte) (s : State) : Answer := conclude (runScan .v8 buf s.work) s

/-- `SCAN16(BUF)` (R173). -/
def execScan16 (buf : List Byte) (s : State) : Answer := conclude (runScan .v16 buf s.work) s

/-! ## The closed form (R190) -/

/-- `i` is in `M`: a header match at offset `i`. -/
def matchAt (buf : List Byte) (i : Nat) : Bool :=
  decide (i + 2 ≤ buf.length) && isHeader (byteAt buf i) (byteAt buf (i + 1))

/-- `complete(i)`: `L - i >= MIN(v)` and `L - i >= MIN(v) + BUF[i+3]`. -/
def completeAt (v : Variant) (buf : List Byte) (i : Nat) : Bool :=
  decide (minSize v ≤ buf.length - i) && decide (minSize v + (byteAt buf (i + 3)).toNat ≤ buf.length - i)

/-- The Frame of the candidate at `i`, its checksum recomputed. -/
def candidateAt (v : Variant) (buf : List Byte) (i : Nat) : Frame :=
  let n := (byteAt buf (i + 3)).toNat
  { command := byteAt buf (i + 2)
    payload := (buf.drop (i + 4)).take n
    checksum := crc v ((buf.drop (i + 2)).take (2 + n)) }

/-- `valid(i)`: `complete(i)` "and the checksum of the candidate at `i` matches". -/
def validAt (v : Variant) (buf : List Byte) (i : Nat) : Bool :=
  completeAt v buf i &&
    decide (readChecksum v buf (i + 4 + (byteAt buf (i + 3)).toNat) = some (candidateAt v buf i).checksum)

/-- A header match that the walk passes over: it is complete and its checksum does not match (R177). -/
def rejectedAt (v : Variant) (buf : List Byte) (i : Nat) : Bool :=
  matchAt buf i && completeAt v buf i && !validAt v buf i

/-- The outcome by R190: `j` is the least header match that is incomplete or valid. -/
def scanClosed (v : Variant) (buf : List Byte) : Response :=
  if buf.length < minSize v then .needMoreData
  else
    match (List.range (buf.length - 1)).find? (fun i => matchAt buf i && (!completeAt v buf i || validAt v buf i)) with
    | none => .noFrameDiscard (if byteAt buf (buf.length - 1) = head1 then buf.length - 1 else buf.length)
    | some j =>
      if completeAt v buf j then
        .frameFound (candidateAt v buf j) (j + minSize v + (byteAt buf (j + 3)).toNat)
      else .needMoreData

end Sys2Proof.Machine
end

