-- ==== Sys2Proof/Machine/Buffer.lean ====
section
/-! DEFINITION. The owned-buffer operations (43_owned_buffer.md R215 to R220), each one indivisible action on `RXBUF`, and the reserved
codes (30_encoding.md R93). -/

namespace Sys2Proof.Machine

/-- `FEED(CHUNK)` (R215): "The refusal is whole: no prefix of the chunk is taken". -/
def execFeed (chunk : List Byte) (s : State) : Answer :=
  inOwned s <|
    if overflows s.cfg.bufcap s.rxbuf.length chunk.length then raiseError .bufferFull s
    else respond (.done .nothing) s.work (s.setRxbuf (appendChunk s.rxbuf chunk))

/-- `TRIM(k)` (R216). -/
def execTrim (k : Nat) (s : State) : Answer :=
  inOwned s <|
    if s.rxbuf.length < k then raiseError .trimRange s
    else respond (.done .nothing) s.work (s.setRxbuf (dropFront k s.rxbuf))

/-- `NEXTv` (R217): "one scan of `RXBUF` followed at once by the trim the outcome orders, as one indivisible action". -/
def runNext (v : Variant) (s : State) : Answer :=
  inOwned s <|
    match runScan v s.rxbuf s.work with
    | .ok (r, w) => respond r w (s.setRxbuf (trimOrdered r s.rxbuf))
    | .error f => .fault f

/-- `NEXT8` (R218). -/
def execNext8 (s : State) : Answer := runNext .v8 s

/-- `NEXT16` (R219). -/
def execNext16 (s : State) : Answer := runNext .v16 s

/-- `CLEAR` (R220): "It is `TRIM RXLEN`". -/
def execClear (s : State) : Answer :=
  inOwned s <| respond (.done .nothing) s.work (s.setRxbuf [])

/-- Code `0xD` (30_encoding.md R93): "the block responds `IllegalOp` and changes no state". -/
def execReservedD (s : State) : Answer := raiseError .illegalOp s

/-- Code `0xE` (R93). -/
def execReservedE (s : State) : Answer := raiseError .illegalOp s

/-- Code `0xF` (R93). -/
def execReservedF (s : State) : Answer := raiseError .illegalOp s

end Sys2Proof.Machine
end

