-- ==== Sys2Proof/Machine/Operands.lean ====
section
/-! DEFINITION. What the operations test of their operands (41_frame_codec.md R141, 43_owned_buffer.md R216). There are no register
operands and no addressing modes: "Every operand of every operation is either a byte sequence ... or an integer" (10_state.md R27). -/

namespace Sys2Proof.Machine

/-- "`0 ≤ command ≤ 255`" (41_frame_codec.md R141). -/
def commandInRange (c : Int) : Bool := decide (0 ≤ c) && decide (c ≤ cmdMax)

/-- "`0 ≤ len(payload) ≤ 255`" (R141). -/
def payloadInRange (p : List Byte) : Bool := decide (p.length ≤ lenMax)

/-- The precondition of both encoders (R141). -/
def encodable (c : Int) (p : List Byte) : Bool := commandInRange c && payloadInRange p

/-- The CMD byte of an encodable command (30_encoding.md R82). -/
def commandByte (c : Int) : Byte := BitVec.ofInt 8 c

end Sys2Proof.Machine
end

