-- ==== Sys2Proof/Machine/Codec.lean ====
section
/-! DEFINITION. The Frame Codec: `ENC8`, `ENC16`, `DEC8`, `DEC16` (41_frame_codec.md), and the recognition of a frame that stands in
its wire format, FRAME8 and FRAME16 (30_encoding.md R80, R81, R88; log 6). -/

namespace Sys2Proof.Machine

/-- Both encoders (R142, R143): the argument check "before any output byte is produced" (R141), then `N`, the checksum over `BODY`,
and `WIRE`. -/
def runEncoder (v : Variant) (c : Int) (payload : List Byte) (s : State) : Answer :=
  if encodable c payload then
    let w := { s.work with n := lenByte payload }.runCrc v (covered (commandByte c) payload)
    respond (.done (.wire (layout (commandByte c) payload (w.acc v)))) w s
  else raiseError .invalidArgument s

/-- Both decoders (R151, R152): the four tests in R149's order, "and the first that fails ends the operation", then the Frame of
R150. Every read is one that can leave the span, and none does (20_memory.md R59). -/
def runDecoder (v : Variant) (bytes : List Byte) (w : Work) : Except Fault (Response × Work) :=
  if bytes.length < minSize v then .ok (.decodeFailure .tooShort, w)
  else do
    let b0 ← orFault (memRead bytes 0)
    let b1 ← orFault (memRead bytes 1)
    if b0 ≠ head1 ∨ b1 ≠ head2 then .ok (.decodeFailure .headerMismatch, w)
    else do
      let n ← orFault (memRead bytes 3)
      let w := { w with n := n }
      if bytes.length < minSize v + n.toNat then .ok (.decodeFailure .lengthExceedsSpan, w)
      else do
        let body ← orFault (readSpan bytes 2 (2 + n.toNat))
        let w := w.runCrc v body
        let wireck ← orFault (readChecksum v bytes (4 + n.toNat))
        if w.acc v ≠ wireck then .ok (.decodeFailure .checksumMismatch, w)
        else do
          let command ← orFault (memRead bytes 2)
          let payload ← orFault (readSpan bytes 4 n.toNat)
          .ok (.done (.frame { command := command, payload := payload, checksum := wireck }), w)

/-- The decoder as one function of the span: R149's tests in order, and R150's Frame. `runDecoder` responds with this
(Laws/Codec.lean). -/
def decodeOutcome (v : Variant) (bytes : List Byte) : Response :=
  if bytes.length < minSize v then .decodeFailure .tooShort
  else if byteAt bytes 0 ≠ head1 ∨ byteAt bytes 1 ≠ head2 then .decodeFailure .headerMismatch
  else
    let n := (byteAt bytes 3).toNat
    if bytes.length < minSize v + n then .decodeFailure .lengthExceedsSpan
    else
      let k := crc v ((bytes.drop 2).take (2 + n))
      if readChecksum v bytes (4 + n) = some k then
        .done (.frame { command := byteAt bytes 2, payload := (bytes.drop 4).take n, checksum := k })
      else .decodeFailure .checksumMismatch

/-- `ENC8` (R142). -/
def execEnc8 (c : Int) (payload : List Byte) (s : State) : Answer := runEncoder .v8 c payload s

/-- `ENC16` (R143). -/
def execEnc16 (c : Int) (payload : List Byte) (s : State) : Answer := runEncoder .v16 c payload s

/-- `DEC8` (R151). -/
def execDec8 (bytes : List Byte) (s : State) : Answer := conclude (runDecoder .v8 bytes s.work) s

/-- `DEC16` (R152). -/
def execDec16 (bytes : List Byte) (s : State) : Answer := conclude (runDecoder .v16 bytes s.work) s

/-- FRAME8: the frame's bytes, in the layout of R80, recognised by the `V8` decoder (30_encoding.md R88; DESIGN CHOICE, log 6). -/
def execFrame8 (c : Byte) (payload : List Byte) (ck : Byte) (s : State) : Answer :=
  conclude (runDecoder .v8 (layout c payload (.c8 ck)) s.work) s

/-- FRAME16: the frame's bytes, in the layout of R81, recognised by the `V16` decoder (30_encoding.md R88; DESIGN CHOICE, log 6). -/
def execFrame16 (c : Byte) (payload : List Byte) (ck : Half) (s : State) : Answer :=
  conclude (runDecoder .v16 (layout c payload (.c16 ck)) s.work) s

end Sys2Proof.Machine
end

