-- ==== Sys2Proof/Machine/Dispatch.lean ====
section
/-! DEFINITION. One arm per constructor of Instr: each operation's meaning. -/

namespace Sys2Proof.Machine

def exec (i : Instr) (s : State) : Host.Outcome State Fault Refusal :=
  match i with
  | .crc8 data => Sys2Proof.Machine.execCrc8 data s
  | .crc16 data => Sys2Proof.Machine.execCrc16 data s
  | .enc8 command payload => Sys2Proof.Machine.execEnc8 command payload s
  | .enc16 command payload => Sys2Proof.Machine.execEnc16 command payload s
  | .dec8 bytes => Sys2Proof.Machine.execDec8 bytes s
  | .dec16 bytes => Sys2Proof.Machine.execDec16 bytes s
  | .scan8 buf => Sys2Proof.Machine.execScan8 buf s
  | .scan16 buf => Sys2Proof.Machine.execScan16 buf s
  | .feed chunk => Sys2Proof.Machine.execFeed chunk s
  | .trim k => Sys2Proof.Machine.execTrim k s
  | .next8 => Sys2Proof.Machine.execNext8 s
  | .next16 => Sys2Proof.Machine.execNext16 s
  | .clear => Sys2Proof.Machine.execClear s
  | .reservedD => Sys2Proof.Machine.execReservedD s
  | .reservedE => Sys2Proof.Machine.execReservedE s
  | .reservedF => Sys2Proof.Machine.execReservedF s
  | .frame8 command payload ck => Sys2Proof.Machine.execFrame8 command payload ck s
  | .frame16 command payload ck => Sys2Proof.Machine.execFrame16 command payload ck s

end Sys2Proof.Machine
end

