-- ==== Sys2Proof/Machine/Serve.lean ====
section
/-! DEFINITION. What a step does around exec: taking the next request (log 1), the answer to a span that is no frame, and the step that
finds no request (log 11). -/

namespace Sys2Proof.Machine

/-- A step with no request: "The block itself is not an agent: it takes no step of its own, only responds" (60_exceptions.md R249),
and "results are values of the response and are not kept by the block" (10_state.md R39). -/
def idleStep (s : State) : Answer := .next { s with response := none }

/-- Serve one request. A span that is too short, has no header or declares more than it holds is a `DecodeFailure`, never a trap
(30_encoding.md R88, 41_frame_codec.md R149). -/
def serve (r : Request) (s : State) : Answer :=
  match decode r with
  | .ok i => exec i s
  | .error reason => raiseError (.decodeFailure reason) s

/-- Take the oldest request and serve it. -/
def takeStep (s : State) : Answer :=
  match s.requests with
  | [] => idleStep s
  | r :: rest => serve r (s.setRequests rest)

/-- Put a table word where the next step takes its request: at the head of the requests (log 18). -/
def placeWord (s : State) (nbits w : Nat) : State := s.setRequests (requestOfWord nbits w :: s.requests)

end Sys2Proof.Machine
end

