-- ==== Sys2Proof/Machine/Step.lean ====
section
/-! DEFINITION. One step: one request served, one response given (00_scope.md R14). -/

namespace Sys2Proof.Machine

/-- One step of the block (00_scope.md R14, 70_reset_and_hazards.md R275). -/
def step (s : State) : Host.Outcome State Fault Refusal := takeStep s

/-- The state whose next step serves the instruction of a table word (log 18). -/
def State.withFetchWord (s : State) (nbits w : Nat) : State := placeWord s nbits w

end Sys2Proof.Machine
end

