-- ==== Sys2Proof/Machine/Flags.lean ====
section
/-! DEFINITION. "The block has no status flags and no condition codes. ... What an operation reports, it reports in its outcome tag"
(10_state.md R33). So what stands here is the status code of an outcome (30_encoding.md R95), the reason code (R96) and which
outcomes are errors (60_exceptions.md R230). -/

namespace Sys2Proof

/-- `STATUS[2:0]` (30_encoding.md R95). -/
def Response.status : Response → BitVec 3
  | .done _ => 0#3
  | .invalidArgument => 1#3
  | .decodeFailure _ => 2#3
  | .needMoreData => 3#3
  | .frameFound _ _ => 4#3
  | .noFrameDiscard _ => 5#3
  | .illegalOp => 6#3
  | .bufferFull => 7#3
  | .trimRange => 7#3

/-- `REASON[1:0]` (30_encoding.md R96). -/
def Reason.code : Reason → BitVec 2
  | .tooShort => 0#2
  | .headerMismatch => 1#2
  | .lengthExceedsSpan => 2#2
  | .checksumMismatch => 3#2

/-- The outcomes that are errors in the table of 60_exceptions.md R230. `DecodeFailure` is "a return value, not an exception" (R232). -/
def Response.isError : Response → Bool
  | .invalidArgument | .illegalOp | .bufferFull | .trimRange => true
  | .done _ | .decodeFailure _ | .needMoreData | .frameFound _ _ | .noFrameDiscard _ => false

/-- The three outcomes of a scan (42_defragmenter.md R170). -/
def Response.isScanOutcome : Response → Bool
  | .needMoreData | .frameFound _ _ | .noFrameDiscard _ => true
  | .done _ | .invalidArgument | .decodeFailure _ | .illegalOp | .bufferFull | .trimRange => false

end Sys2Proof
end

