-- ==== Sys2Proof/Machine/Caller.lean ====
section
/-! DEFINITION. The callers' side of the contract (43_owned_buffer.md R210 to R222): the PURE caller, who owns the receive buffer and
trims it as a scan orders, and the run of a block over the requests it has been issued (log 19). -/

namespace Sys2Proof.Machine

/-- The source's `next_frame() -> Option<Frame>`: "reading `FrameFound(f, _)` as `Some(f)` and both `NeedMoreData` and
`NoFrameDiscard(_)` as `None`" (30_encoding.md R98). -/
def nextFrame : Response → Option Frame
  | .frameFound f _ => some f
  | .needMoreData | .noFrameDiscard _ => none
  | .done _ | .invalidArgument | .decodeFailure _ | .illegalOp | .bufferFull | .trimRange => none

/-- What the consumer receives of a response: "only validated `(command, payload)` pairs" (20_memory.md R63). -/
def delivered (r : Response) : Option (Byte × List Byte) := (nextFrame r).map fun f => (f.command, f.payload)

/-- The two indivisible actions on one receive buffer: *append* and *scan+trim* (20_memory.md R64). -/
inductive Action where
  | append (chunk : List Byte)
  | parse
deriving DecidableEq, Repr

/-- An action as a request to a block that owns the buffer. -/
def actionRequest (v : Variant) : Action → Request
  | .append chunk => encode (Instr.feedOp chunk)
  | .parse => encode (Instr.nextOp v)

/-- The PURE caller's scan+trim: `SCANv` of its buffer on the block, then the trim the outcome orders (R211 to R213). -/
def callerParse (v : Variant) (block : State) (buf : List Byte) : Option (Response × State × List Byte) :=
  match exec (Instr.scanOp v buf) block with
  | .next t => t.response.map fun r => (r, t, trimOrdered r buf)
  | .fault _ | .refused _ => none

/-- A PURE caller's run: the responses of its scans and the buffer it is left with (R210 to R214). -/
def callerRun (v : Variant) : List Action → State → List Byte → Option (List Response × List Byte)
  | [], _, buf => some ([], buf)
  | .append chunk :: rest, block, buf => callerRun v rest block (buf ++ chunk)
  | .parse :: rest, block, buf =>
    (callerParse v block buf).bind fun x =>
      (callerRun v rest x.2.1 x.2.2).map fun y => (x.1 :: y.1, y.2)

/-- The responses of the next `k` steps, and the state after them. -/
def collect : Nat → State → Option (List Response × State)
  | 0, s => some ([], s)
  | k + 1, s =>
    match step s with
    | .next t => (collect k t).map fun y => (t.response.toList ++ y.1, y.2)
    | .fault _ | .refused _ => none

end Sys2Proof.Machine
end

