-- ==== Sys2Proof/Safety.lean ====
section
/-! DEFINITION. What a good state and a safe run are: the invariant, the spaces an operation may touch (20_memory.md R50), and what a
caller can observe (10_state.md R28). -/

namespace Sys2Proof.Machine

/-- The variant a Frame belongs to: the width of its checksum tells it. -/
def frameVariant (f : Frame) : Variant :=
  match f.checksum with
  | .c8 _ => .v8
  | .c16 _ => .v16

/-- "in every Frame the block produces, `checksum = crc(v)([command, len(payload)] ++ payload)`", and the payload has "length 0–255"
(10_state.md R38). -/
def frameValid (f : Frame) : Bool :=
  decide (f.payload.length ≤ lenMax) && decide (f.checksum = crc (frameVariant f) (covered f.command f.payload))

/-- The span is exactly a valid frame of variant `v` (30_encoding.md R88, R84, 41_frame_codec.md R145): its size is `MIN(v) + N`, it
begins with the header, and its checksum bytes carry `crc(v)` of its bytes 2 to `3 + N`. -/
def isFrameSpan (v : Variant) (b : List Byte) : Bool :=
  decide (b.length = minSize v + (byteAt b 3).toNat) && isHeader (byteAt b 0) (byteAt b 1) &&
    decide (readChecksum v b (4 + (byteAt b 3).toNat) = some (crc v ((b.drop 2).take (2 + (byteAt b 3).toNat))))

/-- What the block's responses keep to: frames are valid (10_state.md R38), `WIRE` is a frame (41_frame_codec.md R145), and a scan
orders no removal of fewer than its variant's bound (42_defragmenter.md R192). -/
def responseSound : Response → Bool
  | .done (.frame f) => frameValid f
  | .done (.wire b) => isFrameSpan .v8 b || isFrameSpan .v16 b
  | .frameFound f consumed => frameValid f && decide (minSize (frameVariant f) + f.payload.length ≤ consumed)
  | .noFrameDiscard n => decide (4 ≤ n)
  | .done .nothing | .done (.sum8 _) | .done (.sum16 _) => true
  | .invalidArgument | .decodeFailure _ | .needMoreData | .illegalOp | .bufferFull | .trimRange => true

/-- The invariant: `PH` is `IDLE` between operations (10_state.md R31), `BITCNT` is 0 to 8 (R24), `RXLEN` is at most `BUFCAP` (R36), a
PURE block holds no buffer (R37), and the response on the port is sound. -/
structure State.Inv (s : State) : Prop where
  phase_idle : s.work.ph = .idle
  bitcnt_le : s.work.bitcnt ≤ 8
  rxbuf_fits : rxbufFits s.cfg.bufcap s.rxbuf = true
  pure_holds_nothing : s.cfg.profile = .pure → s.rxbuf = []
  response_sound : ∀ r, s.response = some r → responseSound r = true

/-- The byte sequences the block touches (20_memory.md R50). -/
inductive Space where
  | data
  | payload
  | wire
  | bytes
  | buf
  | rxbuf
  | chunk
deriving DecidableEq, Repr

/-- The "read by" column of R50. A FRAME row is read as the decoder's span (log 6). -/
def readsSpace : Instr → List Space
  | .crc8 _ | .crc16 _ => [.data]
  | .enc8 _ _ | .enc16 _ _ => [.payload]
  | .dec8 _ | .dec16 _ | .frame8 _ _ _ | .frame16 _ _ _ => [.bytes]
  | .scan8 _ | .scan16 _ => [.buf]
  | .next8 | .next16 => [.rxbuf]
  | .feed _ => [.chunk]
  | .trim _ | .clear | .reservedD | .reservedE | .reservedF => []

/-- The "written by" column of R50. -/
def writesSpace : Instr → List Space
  | .enc8 _ _ | .enc16 _ _ => [.wire]
  | .feed _ | .trim _ | .next8 | .next16 | .clear => [.rxbuf]
  | .crc8 _ | .crc16 _ | .dec8 _ | .dec16 _ | .scan8 _ | .scan16 _ => []
  | .reservedD | .reservedE | .reservedF | .frame8 _ _ _ | .frame16 _ _ _ => []

/-- The `STATUS` codes an operation may answer with: the "returned by" column of 30_encoding.md R95, with `IllegalOp` for a buffer
operation in profile PURE (60_exceptions.md R230), and a FRAME row answered as the decoder answers (log 6). -/
def statusesOf : Instr → List (BitVec 3)
  | .crc8 _ | .crc16 _ => [0]
  | .enc8 _ _ | .enc16 _ _ => [0, 1]
  | .dec8 _ | .dec16 _ | .frame8 _ _ _ | .frame16 _ _ _ => [0, 2]
  | .scan8 _ | .scan16 _ => [3, 4, 5]
  | .next8 | .next16 => [3, 4, 5, 6]
  | .feed _ | .trim _ => [0, 6, 7]
  | .clear => [0, 6]
  | .reservedD | .reservedE | .reservedF => [6]

/-- A scan's outcome with its counts one higher: the outcome for a buffer with one more byte in front that the walk passes over. -/
def shiftedByOne : Response → Response
  | .frameFound f consumed => .frameFound f (consumed + 1)
  | .noFrameDiscard n => .noFrameDiscard (n + 1)
  | .needMoreData => .needMoreData
  | .done r => .done r
  | .decodeFailure r => .decodeFailure r
  | .invalidArgument => .invalidArgument
  | .illegalOp => .illegalOp
  | .bufferFull => .bufferFull
  | .trimRange => .trimRange

/-- The wire bytes of an encodable frame of variant `v` (41_frame_codec.md R145). -/
def frameBytes (v : Variant) (c : Byte) (p : List Byte) : List Byte := layout c p (crc v (covered c p))

/-- The Frame those bytes carry. -/
def frameOf (v : Variant) (c : Byte) (p : List Byte) : Frame := { command := c, payload := p, checksum := crc v (covered c p) }

/-- Two states a caller cannot tell apart: they differ in the working registers at most (10_state.md R28). -/
def sameToCaller (s t : State) : Prop := t = s.setWork t.work

/-- Two answers a caller cannot tell apart. -/
def sameAnswer : Answer → Answer → Prop
  | .next s, .next t => sameToCaller s t
  | .fault f, .fault g => f = g
  | .refused r, .refused q => r = q
  | .next _, .fault _ | .next _, .refused _ | .fault _, .next _ | .fault _, .refused _ => False
  | .refused _, .next _ | .refused _, .fault _ => False

/-- A request that can be posed to the block (00_scope.md R9, D8; log 8). -/
def requestPosable (cmdw : Option Nat) (r : Request) : Bool :=
  match decode r with
  | .ok i => i.posable cmdw
  | .error _ => true

/-- Every request waiting can be posed: the runs the model speaks of. -/
def safeToRun (s : State) : Prop := ∀ r ∈ s.requests, requestPosable s.cfg.cmdw r = true

end Sys2Proof.Machine
end

