-- ==== Sys2Proof/Certificates/Slice0/Obligations.lean ====
section
/-! DEFINITION. The statements for the provers. Where a working register's value is left open by the spec ("any value; never read before
written, never observable", 93_implementation_defined.md U7), a statement says that there is a `w : Work` and names the rest of the next
state in full, so it is also the frame: what `{ s with … }` does not list is unchanged. -/

open Sys2Proof Sys2Proof.Machine

/-! ## Reset, constants, status codes -/

/-- 70_reset_and_hazards.md section 1. `PH = IDLE` and `RXBUF` empty after reset are the spec's decision D14; that no request waits is
the model's (log 1). "After reset the block is ready for any request". -/
def Obligations.ResetIsIdleEmptyAndReady : Prop :=
  ∀ cfg : Config,
    (State.resetWith cfg).work.ph = .idle ∧ (State.resetWith cfg).rxbuf = [] ∧ (State.resetWith cfg).response = none ∧
      (State.resetWith cfg).requests = [] ∧ (State.resetWith cfg).cfg = cfg ∧
      ∀ i : Instr, ∃ t r, exec i (State.resetWith cfg) = .next t ∧ t.response = some r

/-- 10_state.md R21: "`POLY16R` is `POLY16` with its 16 bits in reverse order (bit `k` of one is bit `15-k` of the other)"; and the
size constants fit the layout (30_encoding.md section 1). -/
def Obligations.ConstantsAgreeWithEachOther : Prop :=
  (∀ k < 16, poly16r.getLsbD k = poly16.getLsbD (15 - k)) ∧
    ∀ v : Variant, minSize v = 4 + ckSize v ∧ maxSize v = minSize v + lenMax

/-- 30_encoding.md section 4 (R95, R96; the numbers are the spec's decision D7, and the reasons are log 13): the `STATUS` code of each
tag, the `REASON` code of each reason, and the "returned by" column for every operation in every state. THE MODEL'S CHOICE (log 6): the
FRAME8 and FRAME16 rows, which the column does not have, answer as the decoder does. That a buffer operation answers `IllegalOp` in
profile PURE is 60_exceptions.md section 1. -/
def Obligations.EveryOutcomeIsOneTheTableGives : Prop :=
  (∀ (x : Result) (reason : Reason) (f : Frame) (n : Nat),
    (Response.done x).status = 0 ∧ Response.invalidArgument.status = 1 ∧ (Response.decodeFailure reason).status = 2 ∧
      Response.needMoreData.status = 3 ∧ (Response.frameFound f n).status = 4 ∧ (Response.noFrameDiscard n).status = 5 ∧
      Response.illegalOp.status = 6 ∧ Response.bufferFull.status = 7 ∧ Response.trimRange.status = 7) ∧
    (Reason.tooShort.code = 0 ∧ Reason.headerMismatch.code = 1 ∧ Reason.lengthExceedsSpan.code = 2 ∧ Reason.checksumMismatch.code = 3) ∧
    (∀ r : Response, r.isError = true ↔ r.status = 1 ∨ r.status = 6 ∨ r.status = 7) ∧
    ∀ (i : Instr) (s t : State) (r : Response), exec i s = .next t → t.response = some r → r.status ∈ statusesOf i

/-! ## Checksum engine -/

/-- 40_checksum.md R112. The byte step, in plain arithmetic on numbers. -/
def Obligations.ByteStep8IsEightShiftsOfTheXor : Prop :=
  ∀ a b : Byte,
    (step8 a b).toNat = (fun x => if 128 ≤ x then (2 * x % 256) ^^^ 0x31 else 2 * x % 256)^[8] (a.toNat ^^^ b.toNat)

/-- 40_checksum.md section 3 (the constant 0xA001 is the spec's decision D5). The byte step, in plain arithmetic on numbers. -/
def Obligations.ByteStep16IsEightShiftsOfTheXor : Prop :=
  ∀ (a : Half) (b : Byte),
    (step16 a b).toNat = (fun x => if x % 2 = 1 then (x / 2) ^^^ 0xA001 else x / 2)^[8] (a.toNat ^^^ b.toNat)

/-- 40_checksum.md section 2, with 10_state.md R22: `CRC8` runs on the working registers and answers the fold of the byte step over
the bytes, left to right, from the initial value, and changes nothing else a caller can see. Which function this is is the spec's decision
D4 (log 9). "Its value when a computation ends is the checksum" (R22). That `ACC8` still holds it after the response, and `ACC16`, `PH` and
`I` what they held before, is the model's (log 5: the spec leaves these registers at any value between operations, U7). -/
def Obligations.Crc8AnswersTheFoldOfItsByteStep : Prop :=
  ∀ (data : List Byte) (s : State), ∃ w : Work,
    exec (.crc8 data) s = .next { s with work := w, response := some (.done (.sum8 (data.foldl step8 0x00#8))) } ∧
      w.acc8 = data.foldl step8 0x00#8 ∧ w.acc16 = s.work.acc16 ∧ w.ph = s.work.ph ∧ w.i = s.work.i

/-- 40_checksum.md section 3, with 10_state.md R23: `CRC16` runs on the working registers and answers the fold of the byte step over the
bytes, left to right, from the initial value, and changes nothing else a caller can see. The constant in the step is the spec's decision D5
(log 10). That `ACC16` still holds the checksum after the response, and `ACC8`, `PH` and `I` what they held before, is the model's (log 5:
the spec leaves these registers at any value between operations, U7). -/
def Obligations.Crc16AnswersTheFoldOfItsByteStep : Prop :=
  ∀ (data : List Byte) (s : State), ∃ w : Work,
    exec (.crc16 data) s = .next { s with work := w, response := some (.done (.sum16 (data.foldl step16 0xFFFF#16))) } ∧
      w.acc16 = data.foldl step16 0xFFFF#16 ∧ w.acc8 = s.work.acc8 ∧ w.ph = s.work.ph ∧ w.i = s.work.i

/-- 40_checksum.md section 2, the corner cases of `CRC8`: leading zero bytes are invisible, and a single byte `0x01` gives the
polynomial. -/
def Obligations.LeadingZerosAreInvisibleToCrc8 : Prop :=
  (∀ (k : Nat) (data : List Byte) (s : State), ∃ w : Work,
    exec (.crc8 (List.replicate k 0x00#8 ++ data)) s = .next { s with work := w, response := some (.done (.sum8 (crc8 data))) }) ∧
    crc8 [0x01#8] = poly8

/-- 40_checksum.md R121: the accumulator after each byte of ASCII "123456789", and the result. -/
def Obligations.Crc16ReferenceCheckValue : Prop :=
  List.scanl step16 0xFFFF#16 [0x31#8, 0x32#8, 0x33#8, 0x34#8, 0x35#8, 0x36#8, 0x37#8, 0x38#8, 0x39#8] =
      [0xFFFF#16, 0x947E#16, 0xF595#16, 0x7A75#16, 0x30BA#16, 0xA471#16, 0x32E4#16, 0x9D73#16, 0x37DD#16, 0x4B37#16] ∧
    crc16 [0x31#8, 0x32#8, 0x33#8, 0x34#8, 0x35#8, 0x36#8, 0x37#8, 0x38#8, 0x39#8] = 0x4B37#16

/-- 20_memory.md section 2 and 30_encoding.md R85: the wide checksum on the wire, high byte at the lower offset, both ways. -/
def Obligations.WideChecksumIsBigEndianOnTheWire : Prop :=
  (∀ k : Half, ∃ hi lo : Byte, checksumBytes (.c16 k) = [hi, lo] ∧ hi.toNat = k.toNat / 256 ∧ lo.toNat = k.toNat % 256) ∧
    (∀ (S : List Byte) (a : Nat) (k : Half), readChecksum .v16 S a = some (.c16 k) ↔
      ∃ hi lo : Byte, S[a]? = some hi ∧ S[a + 1]? = some lo ∧ k.toNat = hi.toNat * 256 + lo.toNat) ∧
    ∀ (S : List Byte) (a : Nat) (k : Byte), readChecksum .v8 S a = some (.c8 k) ↔ S[a]? = some k

/-! ## Frame codec -/

/-- 41_frame_codec.md R142. -/
def Obligations.Enc8AnswersTheFrameOrRefuses : Prop :=
  ∀ (c : Int) (p : List Byte) (s : State),
    (0 ≤ c ∧ c ≤ 255 ∧ p.length ≤ 255 → ∃ w : Work,
      exec (.enc8 c p) s = .next { s with
        work := w
        response := some (.done (.wire ([0xAA#8, 0xBB#8] ++ ([BitVec.ofInt 8 c, BitVec.ofNat 8 p.length] ++ p) ++
          [crc8 ([BitVec.ofInt 8 c, BitVec.ofNat 8 p.length] ++ p)]))) }) ∧
      (¬ (0 ≤ c ∧ c ≤ 255 ∧ p.length ≤ 255) →
        exec (.enc8 c p) s = .next { s with response := some .invalidArgument })

/-- 41_frame_codec.md R143. -/
def Obligations.Enc16AnswersTheFrameOrRefuses : Prop :=
  ∀ (c : Int) (p : List Byte) (s : State),
    (0 ≤ c ∧ c ≤ 255 ∧ p.length ≤ 255 → ∃ w : Work,
      exec (.enc16 c p) s = .next { s with
        work := w
        response := some (.done (.wire ([0xAA#8, 0xBB#8] ++ ([BitVec.ofInt 8 c, BitVec.ofNat 8 p.length] ++ p) ++
          [(crc16 ([BitVec.ofInt 8 c, BitVec.ofNat 8 p.length] ++ p)).extractLsb' 8 8,
            (crc16 ([BitVec.ofInt 8 c, BitVec.ofNat 8 p.length] ++ p)).extractLsb' 0 8]))) }) ∧
      (¬ (0 ≤ c ∧ c ≤ 255 ∧ p.length ≤ 255) →
        exec (.enc16 c p) s = .next { s with response := some .invalidArgument })

/-- 41_frame_codec.md section 2 with `CMDW = 8` (D8; log 8): "the command test can never fail and only the length test remains". -/
def Obligations.WithByteWideCommandsOnlyTheLengthIsTested : Prop :=
  ∀ (v : Variant) (c : Int) (p : List Byte) (s : State), (Instr.encodeOp v c p).posable (some 8) = true →
    (exec (Instr.encodeOp v c p) s = .next { s with response := some .invalidArgument } ↔ 255 < p.length)

/-- 41_frame_codec.md section 2, "Every output of an encoder is a valid frame of its variant" (marked derived there). -/
def Obligations.EncodersOutputValidFrames : Prop :=
  ∀ (v : Variant) (c : Int) (p b : List Byte) (s t : State),
    exec (Instr.encodeOp v c p) s = .next t → t.response = some (.done (.wire b)) →
      isFrameSpan v b = true ∧ b.length = minSize v + p.length ∧ b.length ≤ maxSize v

/-- 41_frame_codec.md section 3, `DEC8`: every span is answered, with the tests in R149's order. The order of the header and length
tests and the reason codes are the spec's decisions D10 and D7. -/
def Obligations.Dec8AnswersByTheTestsInOrder : Prop :=
  ∀ (bytes : List Byte) (s : State), ∃ w : Work,
    exec (.dec8 bytes) s = .next { s with
      work := w
      response := some (
        if bytes.length < 5 then .decodeFailure .tooShort
        else if byteAt bytes 0 ≠ 0xAA#8 ∨ byteAt bytes 1 ≠ 0xBB#8 then .decodeFailure .headerMismatch
        else if bytes.length < 5 + (byteAt bytes 3).toNat then .decodeFailure .lengthExceedsSpan
        else if crc8 ((bytes.drop 2).take (2 + (byteAt bytes 3).toNat)) ≠ byteAt bytes (4 + (byteAt bytes 3).toNat) then
          .decodeFailure .checksumMismatch
        else .done (.frame {
          command := byteAt bytes 2
          payload := (bytes.drop 4).take (byteAt bytes 3).toNat
          checksum := .c8 (crc8 ((bytes.drop 2).take (2 + (byteAt bytes 3).toNat))) })) }

/-- 41_frame_codec.md section 3, `DEC16`. The order of the header and length tests and the reason codes are the spec's decisions D10 and
D7. -/
def Obligations.Dec16AnswersByTheTestsInOrder : Prop :=
  ∀ (bytes : List Byte) (s : State), ∃ w : Work,
    exec (.dec16 bytes) s = .next { s with
      work := w
      response := some (
        if bytes.length < 6 then .decodeFailure .tooShort
        else if byteAt bytes 0 ≠ 0xAA#8 ∨ byteAt bytes 1 ≠ 0xBB#8 then .decodeFailure .headerMismatch
        else if bytes.length < 6 + (byteAt bytes 3).toNat then .decodeFailure .lengthExceedsSpan
        else if (crc16 ((bytes.drop 2).take (2 + (byteAt bytes 3).toNat))).toNat ≠
            (byteAt bytes (4 + (byteAt bytes 3).toNat)).toNat * 256 + (byteAt bytes (5 + (byteAt bytes 3).toNat)).toNat then
          .decodeFailure .checksumMismatch
        else .done (.frame {
          command := byteAt bytes 2
          payload := (bytes.drop 4).take (byteAt bytes 3).toNat
          checksum := .c16 (crc16 ((bytes.drop 2).take (2 + (byteAt bytes 3).toNat))) })) }

/-- 41_frame_codec.md section 3, bytes beyond the frame are ignored. The second clause reads the diagnostic reason, which is the spec's
decision D7 (log 13). -/
def Obligations.DecodersIgnoreBytesBeyondTheFrame : Prop :=
  (∀ (v : Variant) (bytes extra : List Byte) (s t : State) (f : Frame),
    exec (Instr.decodeOp v bytes) s = .next t → t.response = some (.done (.frame f)) →
      ∃ t' : State, exec (Instr.decodeOp v (bytes ++ extra)) s = .next t' ∧ t'.response = some (.done (.frame f))) ∧
    ∀ (v : Variant) (bytes : List Byte) (s t : State),
      exec (Instr.decodeOp v bytes) s = .next t → t.response = some (.decodeFailure .lengthExceedsSpan) →
        bytes.length < minSize v + (byteAt bytes 3).toNat

/-- 41_frame_codec.md R155. The encoder's output is decoded in any state, by a block of any profile. -/
def Obligations.DecodingAnEncodedFrameGivesItBack : Prop :=
  ∀ (v : Variant) (c : Int) (p : List Byte) (s s' : State), 0 ≤ c → c ≤ 255 → p.length ≤ 255 →
    ∃ (t t' : State) (b : List Byte),
      exec (Instr.encodeOp v c p) s = .next t ∧ t.response = some (.done (.wire b)) ∧
        exec (Instr.decodeOp v b) s' = .next t' ∧
        t'.response = some (.done (.frame {
          command := BitVec.ofInt 8 c
          payload := p
          checksum := crc v ([BitVec.ofInt 8 c, BitVec.ofNat 8 p.length] ++ p) }))

/-- 41_frame_codec.md section 4, across variants (marked derived there): an empty `V8` frame is too short for `DEC16`, a longer one declares
a byte more than it holds, and `DEC8` of a `V16` frame passes only where the high checksum byte happens to equal `crc8`. The reasons, and
which test comes first, are the spec's decisions D7 and D10 (log 13). -/
def Obligations.FramesOfTheOtherVariant : Prop :=
  (∀ (c : Byte) (s : State), ∃ w : Work,
    exec (.dec16 (frameBytes .v8 c [])) s = .next { s with work := w, response := some (.decodeFailure .tooShort) }) ∧
    (∀ (c : Byte) (p : List Byte) (s : State), 1 ≤ p.length → p.length ≤ 255 → ∃ w : Work,
      exec (.dec16 (frameBytes .v8 c p)) s = .next { s with work := w, response := some (.decodeFailure .lengthExceedsSpan) }) ∧
    ∀ (c : Byte) (p : List Byte) (s : State), p.length ≤ 255 → ∃ w : Work,
      exec (.dec8 (frameBytes .v16 c p)) s = .next { s with
        work := w
        response := some (
          if crc8 (covered c p) = hiByte (crc16 (covered c p)) then
            .done (.frame { command := c, payload := p, checksum := .c8 (crc8 (covered c p)) })
          else .decodeFailure .checksumMismatch) }

/-- 30_encoding.md sections 1 and 2. THE MODEL'S CHOICE (log 6): a row of the wire formats, as an instruction, is the frame shown to the
block, and its meaning is the format's recognition. -/
def Obligations.WireFramesAreRecognisedByTheirChecksum : Prop :=
  (∀ (c : Byte) (p : List Byte) (k : Byte) (s : State), p.length ≤ 255 → ∃ w : Work,
    exec (.frame8 c p k) s = .next { s with
      work := w
      response := some (
        if crc8 ([c, BitVec.ofNat 8 p.length] ++ p) = k then .done (.frame { command := c, payload := p, checksum := .c8 k })
        else .decodeFailure .checksumMismatch) }) ∧
    ∀ (c : Byte) (p : List Byte) (k : Half) (s : State), p.length ≤ 255 → ∃ w : Work,
      exec (.frame16 c p k) s = .next { s with
        work := w
        response := some (
          if crc16 ([c, BitVec.ofNat 8 p.length] ++ p) = k then .done (.frame { command := c, payload := p, checksum := .c16 k })
          else .decodeFailure .checksumMismatch) }

/-! ## Defragmenter -/

/-- 42_defragmenter.md sections 2 and 5: the machine of phases, run on the working registers, responds as the function `scan` does
(marked derived there), for every buffer and in every state, and is back in `IDLE`. That `L` still holds the buffer's length after the
response is the model's (log 5: any value, U7). -/
def Obligations.ScanMachineRespondsAsTheScanFunction : Prop :=
  (∀ (buf : List Byte) (s : State), ∃ w : Work,
    exec (.scan8 buf) s = .next { s with work := w, response := some (scan .v8 buf) } ∧ w.ph = .idle ∧ w.l = buf.length) ∧
    ∀ (buf : List Byte) (s : State), ∃ w : Work,
      exec (.scan16 buf) s = .next { s with work := w, response := some (scan .v16 buf) } ∧ w.ph = .idle ∧ w.l = buf.length

/-- 42_defragmenter.md section 6, the closed form of the outcome (marked derived there). -/
def Obligations.ScanOutcomeHasTheClosedForm : Prop := ∀ (v : Variant) (buf : List Byte), scan v buf = scanClosed v buf

/-- 42_defragmenter.md R178, with the count of R175: the earliest header match whose checksum matches is reported, when every match
before it is complete and does not match. -/
def Obligations.EarliestValidMatchWins : Prop :=
  ∀ (v : Variant) (buf : List Byte) (i : Nat) (s : State), matchAt buf i = true → validAt v buf i = true →
    (∀ j < i, matchAt buf j = true → rejectedAt v buf j = true) → ∃ w : Work,
      exec (Instr.scanOp v buf) s = .next { s with
        work := w
        response := some (.frameFound (candidateAt v buf i) (i + (minSize v + (byteAt buf (i + 3)).toNat))) }

/-- 42_defragmenter.md section 6, blocking by an incomplete candidate (marked derived there); a buffer shorter than the minimum needs
more data whatever it holds (section 2 line (a)). -/
def Obligations.IncompleteCandidateBlocksTheScan : Prop :=
  (∀ (v : Variant) (buf : List Byte) (i : Nat) (s : State), matchAt buf i = true → completeAt v buf i = false →
    (∀ j < i, matchAt buf j = true → rejectedAt v buf j = true) → ∃ w : Work,
      exec (Instr.scanOp v buf) s = .next { s with work := w, response := some .needMoreData }) ∧
    ∀ (v : Variant) (buf : List Byte) (s : State), buf.length < minSize v → ∃ w : Work,
      exec (Instr.scanOp v buf) s = .next { s with work := w, response := some .needMoreData }

/-- 42_defragmenter.md section 3, `NoFrameDiscard` and the dangling first header byte (which byte counts as one is the spec's decision
D28). -/
def Obligations.OnlyADanglingFirstHeaderByteIsKept : Prop :=
  ∀ (v : Variant) (buf : List Byte) (s : State), minSize v ≤ buf.length →
    (∀ j, matchAt buf j = true → rejectedAt v buf j = true) → ∃ w : Work,
      exec (Instr.scanOp v buf) s = .next { s with
        work := w
        response := some (.noFrameDiscard (if byteAt buf (buf.length - 1) = 0xAA#8 then buf.length - 1 else buf.length)) }

/-- 42_defragmenter.md R177. Past a byte that is no header match, or is one whose candidate is rejected, the scan goes on exactly one byte
later, inside the rejected span: the outcome is that of the buffer without its first byte, counts one higher, and it is a scan's outcome, so
no mismatch is reported. In a buffer of exactly `MIN(v)` bytes, whose rest is too short to be scanned by itself, the walk goes on all the
same: a match further on needs more data, and without one the bytes are discarded (how many exactly, `OnlyADanglingFirstHeaderByteIsKept`
says). -/
def Obligations.RejectedCandidateAdvancesTheScanByOneByte : Prop :=
  (∀ (v : Variant) (a : Byte) (rest : List Byte) (s : State), minSize v ≤ rest.length →
    (matchAt (a :: rest) 0 = true → rejectedAt v (a :: rest) 0 = true) → ∃ (w w' : Work) (r : Response),
      r.isScanOutcome = true ∧ exec (Instr.scanOp v rest) s = .next { s with work := w, response := some r } ∧
        exec (Instr.scanOp v (a :: rest)) s = .next { s with work := w', response := some (shiftedByOne r) }) ∧
    ∀ (v : Variant) (buf : List Byte) (s : State), buf.length = minSize v →
      (matchAt buf 0 = true → rejectedAt v buf 0 = true) → ∃ (w : Work) (r : Response),
        exec (Instr.scanOp v buf) s = .next { s with work := w, response := some r } ∧
          ((∃ j, 0 < j ∧ matchAt buf j = true) → r = .needMoreData) ∧
          ((∀ j, 0 < j → matchAt buf j = false) → ∃ n, r = .noFrameDiscard n ∧ n ≤ buf.length ∧ buf.length ≤ n + 1)

/-- 42_defragmenter.md section 4, candidate validation is the decoder's (marked derived there). -/
def Obligations.CandidatesAreValidatedByTheDecoder : Prop :=
  ∀ (v : Variant) (buf : List Byte) (i : Nat) (s : State), matchAt buf i = true → completeAt v buf i = true → ∃ w : Work,
    exec (Instr.decodeOp v ((buf.drop i).take (minSize v + (byteAt buf (i + 3)).toNat))) s = .next { s with
      work := w
      response := some (
        if validAt v buf i then .done (.frame (candidateAt v buf i)) else .decodeFailure .checksumMismatch) }

/-- 10_state.md sections 4: one phase of the machine moves the scan index by one at most, never back, and the buffer length does not
change under it; a scan's start sets the index to 0. -/
def Obligations.ScanIndexMovesByOneAtMost : Prop :=
  ∀ (v : Variant) (buf : List Byte) (w w' : Work), phaseStep v buf w = .ok w' →
    (w.ph ≠ .minchk → w'.i = w.i ∨ (w'.i = w.i + 1 ∧ (w.ph = .hunt ∨ w.ph = .cmp))) ∧
      (w.ph = .minchk → w'.ph = .hunt → w'.i = 0) ∧ (w.ph = .idle → w'.l = buf.length) ∧ (w.ph ≠ .idle → w'.l = w.l)

/-- 42_defragmenter.md section 6, partial delivery (marked derived there). -/
def Obligations.FrameIsFoundOnlyWhenItsLastByteArrives : Prop :=
  ∀ (v : Variant) (c : Byte) (p : List Byte) (s : State), p.length ≤ 255 →
    (∀ k < (frameBytes v c p).length, ∃ w : Work,
      exec (Instr.scanOp v ((frameBytes v c p).take k)) s = .next { s with work := w, response := some .needMoreData }) ∧
      ∃ w : Work, exec (Instr.scanOp v (frameBytes v c p)) s = .next { s with
        work := w
        response := some (.frameFound (frameOf v c p) (minSize v + p.length)) }

/-- 42_defragmenter.md section 6, the resynchronisation property made exact (90_conflicts.md C6; marked derived there). -/
def Obligations.FrameBetweenNoiseIsFound : Prop :=
  ∀ (v : Variant) (noise1 noise2 p : List Byte) (c : Byte) (s : State), p.length ≤ 255 →
    (∀ j < noise1.length, matchAt (noise1 ++ frameBytes v c p ++ noise2) j = true →
      rejectedAt v (noise1 ++ frameBytes v c p ++ noise2) j = true) → ∃ w : Work,
      exec (Instr.scanOp v (noise1 ++ frameBytes v c p ++ noise2)) s = .next { s with
        work := w
        response := some (.frameFound (frameOf v c p) (noise1.length + minSize v + p.length)) }

/-- 42_defragmenter.md section 6, corruption recovery (marked derived there): a frame with another checksum is never reported; a frame
found behind it starts later. -/
def Obligations.CorruptedFrameIsNeverReported : Prop :=
  ∀ (c : Byte) (p rest : List Byte) (s t : State) (f : Frame) (consumed : Nat), p.length ≤ 255 →
    t.response = some (.frameFound f consumed) →
      (∀ k : Byte, k ≠ crc8 (covered c p) → exec (.scan8 (layout c p (.c8 k) ++ rest)) s = .next t →
        minSize .v8 + f.payload.length < consumed) ∧
        ∀ k : Half, k ≠ crc16 (covered c p) → exec (.scan16 (layout c p (.c16 k) ++ rest)) s = .next t →
          minSize .v16 + f.payload.length < consumed

/-! ## The owned buffer -/

/-- 43_owned_buffer.md section 2, `FEED` (the whole refusal is the spec's decision D11). -/
def Obligations.FeedAppendsTheChunkOrRefusesItWhole : Prop :=
  ∀ (chunk : List Byte) (s : State), s.cfg.profile = .owned →
    ((∀ cap, s.cfg.bufcap = some cap → s.rxbuf.length + chunk.length ≤ cap) →
      exec (.feed chunk) s = .next { s with rxbuf := s.rxbuf ++ chunk, response := some (.done .nothing) }) ∧
      ∀ cap, s.cfg.bufcap = some cap → cap < s.rxbuf.length + chunk.length →
        exec (.feed chunk) s = .next { s with response := some .bufferFull }

/-- 43_owned_buffer.md section 2, `TRIM` and `CLEAR` (the spec's decision D12). -/
def Obligations.TrimAndClearRemoveLeadingBytes : Prop :=
  ∀ (k : Nat) (s : State), s.cfg.profile = .owned →
    (k ≤ s.rxbuf.length → exec (.trim k) s = .next { s with rxbuf := s.rxbuf.drop k, response := some (.done .nothing) }) ∧
      (s.rxbuf.length < k → exec (.trim k) s = .next { s with response := some .trimRange }) ∧
      exec .clear s = .next { s with rxbuf := [], response := some (.done .nothing) } ∧
      exec .clear s = exec (.trim s.rxbuf.length) s

/-- 43_owned_buffer.md R217: one scan of `RXBUF` and the trim its outcome orders. -/
def Obligations.NextScansAndTrimsAsOrdered : Prop :=
  ∀ s : State, s.cfg.profile = .owned →
    (∃ w : Work, exec .next8 s = .next { s with
      work := w
      rxbuf := (match scan .v8 s.rxbuf with
        | .frameFound _ consumed => s.rxbuf.drop consumed
        | .noFrameDiscard n => s.rxbuf.drop n
        | _ => s.rxbuf)
      response := some (scan .v8 s.rxbuf) }) ∧
      ∃ w : Work, exec .next16 s = .next { s with
        work := w
        rxbuf := (match scan .v16 s.rxbuf with
          | .frameFound _ consumed => s.rxbuf.drop consumed
          | .noFrameDiscard n => s.rxbuf.drop n
          | _ => s.rxbuf)
        response := some (scan .v16 s.rxbuf) }

/-- 42_defragmenter.md section 6, progress (marked derived there): what an outcome other than `NeedMoreData` removes, and what a discard
leaves. -/
def Obligations.OutcomesOtherThanNeedMoreDataMakeProgress : Prop :=
  ∀ (v : Variant) (s t : State), s.cfg.profile = .owned → exec (Instr.nextOp v) s = .next t →
    (t.response = some .needMoreData ∧ t.rxbuf = s.rxbuf) ∨
      (∃ f consumed, t.response = some (.frameFound f consumed) ∧ minSize v ≤ consumed ∧ consumed ≤ s.rxbuf.length ∧
        t.rxbuf = s.rxbuf.drop consumed) ∨
      ∃ n, t.response = some (.noFrameDiscard n) ∧ minSize v ≤ n + 1 ∧ s.rxbuf = s.rxbuf.take n ++ t.rxbuf ∧
        (t.rxbuf = [] ∨ t.rxbuf = [0xAA#8])

/-- 43_owned_buffer.md section 2, the two `None` cases of `next_frame` (marked derived there): after a discard, calling again needs more
data. -/
def Obligations.AfterADiscardMoreDataIsNeeded : Prop :=
  ∀ (v : Variant) (s t : State) (n : Nat), s.cfg.profile = .owned → exec (Instr.nextOp v) s = .next t →
    t.response = some (.noFrameDiscard n) → ∃ w : Work,
      exec (Instr.nextOp v) t = .next { t with work := w, response := some .needMoreData }

/-- 30_encoding.md section 3 (the spec's decision D13): the reserved codes, and the buffer operations in profile PURE, answer `IllegalOp`
and change nothing. -/
def Obligations.IllegalRequestsChangeNothing : Prop :=
  ∀ s : State,
    (exec .reservedD s = .next { s with response := some .illegalOp } ∧
      exec .reservedE s = .next { s with response := some .illegalOp } ∧
      exec .reservedF s = .next { s with response := some .illegalOp }) ∧
      (s.cfg.profile = .pure → ∀ (chunk : List Byte) (k : Nat),
        ∀ i ∈ [Instr.feed chunk, .trim k, .next8, .next16, .clear], exec i s = .next { s with response := some .illegalOp })

/-- 20_memory.md section 3 (marked derived there): how the bytes were divided into chunks has no effect; after all are fed the buffer
holds them in order behind what it held. That requests wait in a list, one served a step until none is left, is the model's (log 1). -/
def Obligations.ChunksAccumulateInOrder : Prop :=
  ∀ (chunks : List (List Byte)) (s : State), s.cfg.profile = .owned → s.cfg.bufcap = none →
    s.requests = chunks.map (fun c => encode (Instr.feedOp c)) →
      ∃ (rs : List Response) (t : State), collect chunks.length s = some (rs, t) ∧ t.rxbuf = s.rxbuf ++ chunks.flatten ∧
        rs = List.replicate chunks.length (.done .nothing) ∧ t.requests = []

/-- 43_owned_buffer.md section 2, equivalence of the profiles (marked derived there): a block that owns the buffer and a PURE caller that
trims as ordered, given the same appends and parses, get the same outcomes and are left with the same bytes. The PURE caller as a function
(log 19) and the list of waiting requests (log 1) are the model's. -/
def Obligations.OwnedBlockAndPureCallerAgree : Prop :=
  ∀ (v : Variant) (actions : List Action) (owner other : State), owner.cfg.profile = .owned → owner.cfg.bufcap = none →
    owner.requests = actions.map (actionRequest v) → other.cfg.profile = .pure →
      ∃ (rs : List Response) (t : State), collect actions.length owner = some (rs, t) ∧
        callerRun v actions other owner.rxbuf = some (rs.filter Response.isScanOutcome, t.rxbuf)

/-- 20_memory.md section 7 and 43_owned_buffer.md section 1 (marked derived there): from a buffer of whole frames and a rest too short to
be one, as many `NEXTv` as there are frames report them in wire order, and the next one needs more data. That a caller drains a buffer by
one frame a request is the spec's decision D29; that the requests wait in a list is the model's (log 1). -/
def Obligations.FramesAreDeliveredInWireOrder : Prop :=
  ∀ (v : Variant) (frames : List (Byte × List Byte)) (rest : List Byte) (s : State), s.cfg.profile = .owned →
    (∀ x ∈ frames, x.2.length ≤ 255) → rest.length < minSize v →
    s.rxbuf = frames.flatMap (fun x => frameBytes v x.1 x.2) ++ rest →
    s.requests = List.replicate (frames.length + 1) (encode (Instr.nextOp v)) →
      ∃ (rs : List Response) (t : State), collect (frames.length + 1) s = some (rs, t) ∧
        rs = frames.map (fun x => .frameFound (frameOf v x.1 x.2) (minSize v + x.2.length)) ++ [.needMoreData] ∧
        rs.filterMap delivered = frames ∧ t.rxbuf = rest

/-- 43_owned_buffer.md section 1, the drain loop ends (marked derived there): each outcome that is not `NeedMoreData` removes at least 4
bytes. The drain loop is the spec's decision D29; that the requests wait in a list is the model's (log 1). -/
def Obligations.DrainingReachesNeedMoreData : Prop :=
  ∀ (v : Variant) (s : State), s.cfg.profile = .owned →
    s.requests = List.replicate (s.rxbuf.length / 4 + 1) (encode (Instr.nextOp v)) →
      ∃ (rs : List Response) (t : State), collect (s.rxbuf.length / 4 + 1) s = some (rs, t) ∧
        rs.length = s.rxbuf.length / 4 + 1 ∧ rs.getLast? = some .needMoreData ∧ scan v t.rxbuf = .needMoreData

/-! ## The whole machine -/

/-- 30_encoding.md sections 1 and 3: decoding an encoded instruction gives it back, every operand at every value the encoding admits. The
operation codes are the spec's decision D6; how operands are carried (log 12) and that a frame is an input of its own (log 6) are the
model's. -/
def Obligations.DecodingAnEncodedInstructionGivesItBack : Prop :=
  ∀ i : Instr, i.wellFormed = true → decode (encode i) = .ok i

/-- 30_encoding.md sections 1 and 3, the other direction: a frame read from the link is well-formed, and the bytes before the rest are
its encoding and no other; an operation's code is the one that was read. The codes are the spec's decision D6, and that a frame is an input
of its own is the model's (log 6). -/
def Obligations.EncodingADecodedInstructionGivesItsBytes : Prop :=
  (∀ (v : Variant) (bytes rest : List Byte) (i : Instr), decodeWire v bytes = .ok (i, rest) →
    i.wellFormed = true ∧ ∃ b, encode i = .wire v b ∧ bytes = b ++ rest) ∧
    ∀ (code : BitVec 4) (o : Operands), ∃ o' : Operands, encode (decodeOp code o) = .op code o'

/-- 30_encoding.md sections 1 and 3: a few words written out from the tables, and what they decode to. The operation codes are the spec's
decision D6. The zero operands of a bare word (log 12) and the reading of a bare frame word as `V8` (log 7) are the model's. -/
def Obligations.TableWordsDecodeToTheirRows : Prop :=
  decodeTableWord 8 0b0000 = some (.crc8 []) ∧ decodeTableWord 8 0b0011 = some (.enc16 0 []) ∧
    decodeTableWord 8 0b0101 = some (.dec16 []) ∧ decodeTableWord 8 0b0110 = some (.scan8 []) ∧
    decodeTableWord 8 0b1001 = some (.trim 0) ∧ decodeTableWord 8 0b1011 = some .next16 ∧
    decodeTableWord 8 0b1110 = some .reservedE ∧
    decodeTableWord 32 0b10101010101110110111111100000001 = some (.frame8 0x7F#8 [0x00#8] 0x00#8) ∧
    decodeTableWord 32 0b10101010101110100111111100000001 = none

/-- 00_scope.md section 5, an operation is one request and one response: a step takes the oldest request and is `exec` of the instruction
it decodes to, in the state without that request (that requests wait in a list is the model's, log 1). -/
def Obligations.StepServesTheOldestRequest : Prop :=
  ∀ (s : State) (r : Request) (rest : List Request) (i : Instr), s.requests = r :: rest → decode r = .ok i →
    step s = exec i { s with requests := rest }

/-- 30_encoding.md section 2. THE MODEL'S CHOICE (log 6): a span shown to the block from the link is answered as the decoder of its variant
answers it, whether or not it decodes to a frame. -/
def Obligations.SpansFromTheLinkAreAnsweredAsTheDecoderAnswers : Prop :=
  ∀ (v : Variant) (bytes : List Byte) (rest : List Request) (s : State), s.requests = .wire v bytes :: rest →
    ∃ (w : Work) (t : State), exec (Instr.decodeOp v bytes) { s with requests := rest } = .next t ∧
      step s = .next { t with work := w }

/-- 10_state.md section 8: the invariant holds after reset, whatever the parameters. `PH = IDLE` and `RXBUF` empty at reset are the spec's
decision D14; the zero in `BITCNT` is the model's (log 4), and so are the empty response port (log 2) and the parameters in the state
(log 3). -/
def Obligations.ResetMeetsTheInvariant : Prop := ∀ cfg : Config, (State.resetWith cfg).Inv

/-- 10_state.md sections 3, 4, 6 and 7: every step keeps the invariant: `PH` is `IDLE` between operations, `BITCNT` is 0 to 8, `RXLEN` is at
most `BUFCAP`, a PURE block holds no buffer, and every Frame it produces carries its recomputed checksum. The phases are the spec's
decision D25 and `BUFCAP` its D11; what the registers hold between operations (log 5), the response port that keeps a response (log 2) and
the empty field in profile PURE (log 20) are the model's. -/
def Obligations.EveryStepKeepsTheInvariant : Prop := ∀ s t : State, s.Inv → step s = .next t → t.Inv

/-- 20_memory.md section 4, 42_defragmenter.md section 6 (marked derived there), 60_exceptions.md section 1: no run ever stops. No read leaves
its sequence, every scan ends, and every request is answered. That a step with no request goes on, too, is the model's (log 11). -/
def Obligations.EveryRunGoesOn : Prop := ∀ (k : Nat) (s : State), ∃ t : State, Sys2Proof.core.run k s = .next t

/-- 10_state.md section 3 (marked derived there; U7): whatever the working registers hold before it, a run of any length answers the
same. -/
def Obligations.WorkingRegistersAreUnobservable : Prop :=
  ∀ (k : Nat) (s : State) (w : Work), sameAnswer (Sys2Proof.core.run k s) (Sys2Proof.core.run k (s.setWork w))

/-- 60_exceptions.md R236, R237: an operation that ends in an error, or a decoder that fails, leaves the state as it was but for its
response (and the working registers, for the decoder), and the next request is answered as if it had never been issued. -/
def Obligations.ErrorsLeaveNothingBehind : Prop :=
  ∀ (i : Instr) (s t : State) (r : Response), exec i s = .next t → t.response = some r →
    (r.isError = true → t = { s with response := some r }) ∧
      (∀ reason, r = .decodeFailure reason → t = { s with work := t.work, response := some r }) ∧
      ((r.isError = true ∨ ∃ reason, r = .decodeFailure reason) → ∀ j : Instr, sameAnswer (exec j s) (exec j t))

/-- 10_state.md R36: what writes `RXBUF` and how, and which operations neither read nor write it. -/
def Obligations.RxbufChangesOnlyAtItsEnds : Prop :=
  ∀ (i : Instr) (s t : State), exec i s = .next t →
    (∃ (k : Nat) (added : List Byte), t.rxbuf = s.rxbuf.drop k ++ added ∧ (added ≠ [] → k = 0 ∧ i = .feed added)) ∧
      (t.rxbuf ≠ s.rxbuf → Space.rxbuf ∈ writesSpace i) ∧
      (rxbufFits s.cfg.bufcap s.rxbuf = true → rxbufFits t.cfg.bufcap t.rxbuf = true) ∧
      (Space.rxbuf ∉ writesSpace i → ∀ b : List Byte, exec i (s.setRxbuf b) = .next (t.setRxbuf b))

/-- 10_state.md sections 1 and 6: a PURE block holds nothing between operations: only the response and the working registers can change;
and no operation touches the parameters. The clauses on the model's own fields are the model's: the waiting requests, which no operation
touches (log 1), the response port (log 2) and the parameters as a field (log 3). -/
def Obligations.PureBlockHoldsNothing : Prop :=
  ∀ (i : Instr) (s t : State), exec i s = .next t →
    t.cfg = s.cfg ∧ t.requests = s.requests ∧
      (s.cfg.profile = .pure → t = { s with work := t.work, response := t.response })

/-- 10_state.md section 3 (marked derived there; U7), as a step lemma: that two states look the same to a caller is kept by every step, and
where one of them steps, so does the other. -/
def Obligations.EveryStepKeepsStatesAlikeToTheCaller : Prop :=
  ∀ s s' t : State, sameToCaller s s' → step s = .next t → ∃ t' : State, step s' = .next t' ∧ sameToCaller t t'
end

