-- ==== Sys2Proof/Laws/Bytes.lean ====
section
/-! SUPPORT. Byte sequences: when a read succeeds and what it gives, the byte order of the wide checksum, and the frame layout. -/

namespace Sys2Proof.Machine

/-- A read inside the sequence succeeds (20_memory.md R59). -/
theorem memRead_of_lt {S : List Byte} {k : Nat} (h : k < S.length) : memRead S k = some (byteAt S k) := by
  simp [memRead, byteAt, List.getD, List.getElem?_eq_getElem h]

@[simp] theorem byteAt_cons_zero (a : Byte) (S : List Byte) : byteAt (a :: S) 0 = a := rfl
@[simp] theorem byteAt_cons_succ (a : Byte) (S : List Byte) (k : Nat) : byteAt (a :: S) (k + 1) = byteAt S k := rfl

/-- The byte `k` places into the rest of a sequence. -/
theorem byteAt_drop (S : List Byte) (a k : Nat) : byteAt (S.drop a) k = byteAt S (a + k) := by
  simp [byteAt, List.getD]

/-- The first bytes of a longer sequence. -/
theorem byteAt_append_left {S : List Byte} (T : List Byte) {k : Nat} (h : k < S.length) : byteAt (S ++ T) k = byteAt S k := by
  simp [byteAt, List.getD, List.getElem?_append_left h]

/-- A read outside the sequence gives nothing. -/
theorem memRead_of_le {S : List Byte} {k : Nat} (h : S.length ≤ k) : memRead S k = none := by
  simp [memRead, h]

@[simp] theorem orFault_some {α : Type} (a : α) : orFault (some a) = .ok a := rfl
@[simp] theorem orFault_none {α : Type} : orFault (none : Option α) = .error .readOutOfRange := rfl

/-- A span inside the sequence. -/
theorem readSpan_of_le {S : List Byte} {a n : Nat} (h : a + n ≤ S.length) :
    readSpan S a n = some ((S.drop a).take n) := by simp [readSpan, h]

/-- Everything `readSpan` can answer. -/
theorem readSpan_eq_some {S x : List Byte} {a n : Nat} (h : readSpan S a n = some x) :
    a + n ≤ S.length ∧ x = (S.drop a).take n := by
  unfold readSpan at h
  split at h
  · exact ⟨‹_›, by simpa using h.symm⟩
  · simp at h

/-- A one-byte checksum inside the sequence. -/
theorem readChecksum_v8 {S : List Byte} {a : Nat} (h : a + 1 ≤ S.length) :
    readChecksum .v8 S a = some (.c8 (byteAt S a)) := by
  simp [readChecksum, memRead_of_lt (show a < S.length by omega)]

/-- A two-byte checksum inside the sequence. -/
theorem readChecksum_v16 {S : List Byte} {a : Nat} (h : a + 2 ≤ S.length) :
    readChecksum .v16 S a = some (.c16 (joinBytes (byteAt S a) (byteAt S (a + 1)))) := by
  simp [readChecksum, memRead_of_lt (show a < S.length by omega), memRead_of_lt (show a + 1 < S.length by omega)]

/-- A checksum is readable exactly where its bytes are inside the sequence. -/
theorem readChecksum_isSome (v : Variant) (S : List Byte) (a : Nat) :
    (readChecksum v S a).isSome = decide (a + ckSize v ≤ S.length) := by
  cases v
  · by_cases h : a + 1 ≤ S.length
    · simp [readChecksum_v8 h, ckSize, h]
    · have h' : S.length ≤ a := by omega
      simp [readChecksum, memRead_of_le h', ckSize, h']
  · by_cases h : a + 2 ≤ S.length
    · simp [readChecksum_v16 h, ckSize, h]
    · have h' : S.length ≤ a + 1 := by omega
      simp [readChecksum, memRead_of_le h', ckSize, h]

/-- A checksum whose bytes are inside the sequence can be read. -/
theorem readChecksum_exists (v : Variant) {S : List Byte} {a : Nat} (h : a + ckSize v ≤ S.length) :
    ∃ k, readChecksum v S a = some k := by
  have := readChecksum_isSome v S a
  rw [decide_eq_true h] at this
  exact Option.isSome_iff_exists.mp this

/-- A checksum in the rest of a sequence. -/
theorem readChecksum_drop (v : Variant) (S : List Byte) (i a : Nat) :
    readChecksum v (S.drop i) a = readChecksum v S (i + a) := by
  cases v <;> simp [readChecksum, memRead, Nat.add_assoc]

/-- Both sizes of a frame's parts (30_encoding.md R84): `MIN(v) = 4 + CK(v)`. -/
theorem minSize_eq (v : Variant) : minSize v = 4 + ckSize v := by cases v <;> rfl

/-- The two bytes of a wide checksum, joined again (30_encoding.md R85). -/
theorem joinBytes_hi_lo (k : Half) : joinBytes (hiByte k) (loByte k) = k := by
  apply BitVec.eq_of_getLsbD_eq
  intro i hi
  simp only [joinBytes, hiByte, loByte, BitVec.getLsbD_or, BitVec.getLsbD_shiftLeft, BitVec.getLsbD_setWidth,
    BitVec.getLsbD_ushiftRight]
  by_cases h : i < 8
  · simp [h, hi]
  · have : 8 + (i - 8) = i := by omega
    simp [h, this, show i - 8 < 16 by omega, show i - 8 < 8 by omega]
    exact fun _ => hi

/-- The high byte of two joined bytes. -/
theorem hiByte_joinBytes (hi lo : Byte) : hiByte (joinBytes hi lo) = hi := by
  apply BitVec.eq_of_getLsbD_eq
  intro i h
  simp only [joinBytes, hiByte, BitVec.getLsbD_or, BitVec.getLsbD_shiftLeft, BitVec.getLsbD_setWidth,
    BitVec.getLsbD_ushiftRight]
  simp [h, show 8 + i < 16 by omega]
  omega

/-- The low byte of two joined bytes. -/
theorem loByte_joinBytes (hi lo : Byte) : loByte (joinBytes hi lo) = lo := by
  apply BitVec.eq_of_getLsbD_eq
  intro i h
  simp only [joinBytes, loByte, BitVec.getLsbD_or, BitVec.getLsbD_shiftLeft, BitVec.getLsbD_setWidth]
  simp [h]
  omega

/-- A LEN byte read back is the payload's length, if it fits (30_encoding.md R82). -/
theorem lenByte_toNat {p : List Byte} (h : p.length ≤ 255) : (lenByte p).toNat = p.length := by
  simp [lenByte, BitVec.toNat_ofNat]; omega

/-- How long a frame's checksum bytes are. -/
def checksumVariant : Checksum → Variant
  | .c8 _ => .v8
  | .c16 _ => .v16

@[simp] theorem checksumBytes_length (ck : Checksum) : (checksumBytes ck).length = ckSize (checksumVariant ck) := by
  cases ck <;> rfl

/-- The size law (30_encoding.md R84): `SIZE = MIN(v) + N`. -/
theorem layout_length (c : Byte) (p : List Byte) (ck : Checksum) :
    (layout c p ck).length = minSize (checksumVariant ck) + p.length := by
  simp [layout, covered, minSize_eq]; omega

/-- The layout as four header bytes, the payload and the checksum bytes (30_encoding.md R80, R81). -/
theorem layout_eq (c : Byte) (p : List Byte) (ck : Checksum) :
    layout c p ck = head1 :: head2 :: c :: lenByte p :: (p ++ checksumBytes ck) := by
  simp [layout, covered]

end Sys2Proof.Machine
end

