-- ==== Sys2Proof/Laws/State.lean ====
section
/-! SUPPORT. One lemma per field per update of the state, and what each shared ending of an operation answers. -/

namespace Sys2Proof.Machine

variable (s : State) (w : Work) (r : Response) (b : List Byte) (q : List Request)

@[simp] theorem State.setWork_cfg : (s.setWork w).cfg = s.cfg := rfl
@[simp] theorem State.setWork_work : (s.setWork w).work = w := rfl
@[simp] theorem State.setWork_rxbuf : (s.setWork w).rxbuf = s.rxbuf := rfl
@[simp] theorem State.setWork_requests : (s.setWork w).requests = s.requests := rfl
@[simp] theorem State.setWork_response : (s.setWork w).response = s.response := rfl

@[simp] theorem State.setResponse_cfg : (s.setResponse r).cfg = s.cfg := rfl
@[simp] theorem State.setResponse_work : (s.setResponse r).work = s.work := rfl
@[simp] theorem State.setResponse_rxbuf : (s.setResponse r).rxbuf = s.rxbuf := rfl
@[simp] theorem State.setResponse_requests : (s.setResponse r).requests = s.requests := rfl
@[simp] theorem State.setResponse_response : (s.setResponse r).response = some r := rfl

@[simp] theorem State.setRxbuf_cfg : (s.setRxbuf b).cfg = s.cfg := rfl
@[simp] theorem State.setRxbuf_work : (s.setRxbuf b).work = s.work := rfl
@[simp] theorem State.setRxbuf_rxbuf : (s.setRxbuf b).rxbuf = b := rfl
@[simp] theorem State.setRxbuf_requests : (s.setRxbuf b).requests = s.requests := rfl
@[simp] theorem State.setRxbuf_response : (s.setRxbuf b).response = s.response := rfl

@[simp] theorem State.setRequests_cfg : (s.setRequests q).cfg = s.cfg := rfl
@[simp] theorem State.setRequests_work : (s.setRequests q).work = s.work := rfl
@[simp] theorem State.setRequests_rxbuf : (s.setRequests q).rxbuf = s.rxbuf := rfl
@[simp] theorem State.setRequests_requests : (s.setRequests q).requests = q := rfl
@[simp] theorem State.setRequests_response : (s.setRequests q).response = s.response := rfl

/-- Setting what is already there changes nothing. -/
@[simp] theorem State.setWork_self : s.setWork s.work = s := rfl
@[simp] theorem State.setWork_setWork (w' : Work) : (s.setWork w).setWork w' = s.setWork w' := rfl
@[simp] theorem State.setRxbuf_self : s.setRxbuf s.rxbuf = s := rfl

/-- `respond` answers a next state and nothing else: the response and the working registers are new, all else is kept. -/
theorem respond_eq : respond r w s = .next { s with work := w, response := some r } := rfl

/-- `raiseError` answers a next state in which only the response is new (60_exceptions.md R236). -/
theorem raiseError_eq : raiseError r s = .next { s with response := some r } := rfl

/-- Error return changes nothing (60_exceptions.md R237). -/
theorem returnFromError_eq : returnFromError s = s := rfl

/-- Everything `conclude` can do: a finished run responds, a fault stops. -/
theorem conclude_next {run : Except Fault (Response × Work)} {t : State} (h : conclude run s = .next t) :
    ∃ r w, run = .ok (r, w) ∧ t = { s with work := w, response := some r } := by
  rcases run with f | ⟨r, w⟩
  · simp [conclude] at h
  · exact ⟨r, w, rfl, by simpa [conclude, respond_eq] using h.symm⟩

/-- A finished run's answer. -/
theorem conclude_ok : conclude (.ok (r, w)) s = .next { s with work := w, response := some r } := rfl

/-- `inOwned` runs its body in profile OWNED. -/
theorem inOwned_owned {s : State} (h : s.cfg.profile = .owned) (body : Answer) : inOwned s body = body := by
  simp [inOwned, h]

/-- `inOwned` answers `IllegalOp` in profile PURE (30_encoding.md R93). -/
theorem inOwned_pure {s : State} (h : s.cfg.profile = .pure) (body : Answer) :
    inOwned s body = .next { s with response := some .illegalOp } := by
  simp [inOwned, h, raiseError_eq]

/-- Everything `inOwned` can do. -/
theorem inOwned_cases (body : Answer) :
    (s.cfg.profile = .owned ∧ inOwned s body = body) ∨
      (s.cfg.profile = .pure ∧ inOwned s body = .next { s with response := some .illegalOp }) := by
  cases h : s.cfg.profile
  · exact .inr ⟨rfl, inOwned_pure h body⟩
  · exact .inl ⟨rfl, inOwned_owned h body⟩

end Sys2Proof.Machine
end

