-- ==== Sys2Proof/Laws/Checksum.lean ====
section
/-! SUPPORT. The register-level checksum computation leaves the checksum in the accumulator and touches nothing else. -/

namespace Sys2Proof.Machine

/-- `computed` only evaluates its first argument. -/
theorem computed_eq {w : Nat} {α : Type} (a : BitVec w) (k : BitVec w → α) : computed a k = k a := by
  unfold computed
  split
  · rename_i h
    rw [show a = 0#w from BitVec.eq_of_toNat_eq (by simpa using h)]
  · rename_i n h
    rw [show n + 1 = a.toNat from h.symm, BitVec.ofNat_toNat, BitVec.setWidth_eq]

/-- `k` bit iterations: the accumulator is shifted `k` times and `BITCNT` counts them (10_state.md R24). -/
theorem times_bit {w : Nat} (f : BitVec w → BitVec w) (k : Nat) (q : Lane w) :
    times (Lane.bit f) k q = { q with acc := times f k q.acc, bitcnt := q.bitcnt + k } := by
  induction k generalizing q with
  | zero => rfl
  | succ k ih => simp [times, ih, Lane.bit]; omega

/-- One byte: eight iterations from the XORed accumulator, `BITCNT` at 8, `POS` one on (10_state.md R24, R25). -/
theorem lane_byte {w : Nat} (f : BitVec w → BitVec w) (q : Lane w) (b : Byte) :
    q.byte f b = { acc := times f 8 (q.acc ^^^ b.setWidth w), bitcnt := 8, pos := q.pos + 1 } := by
  simp [Lane.byte, times_bit]

/-- All bytes: the accumulator is the fold of the byte step and `POS` has run over them. -/
theorem lane_bytes {w : Nat} (f : BitVec w → BitVec w) (data : List Byte) (q : Lane w) :
    Lane.bytes f data q =
      { acc := data.foldl (fun a b => times f 8 (a ^^^ b.setWidth w)) q.acc
        bitcnt := if data = [] then q.bitcnt else 8
        pos := q.pos + data.length } := by
  induction data generalizing q with
  | nil => simp [Lane.bytes]
  | cons b data ih =>
    simp only [Lane.bytes, computed_eq, List.foldl_cons, ih, lane_byte]
    simp; omega

/-- The 8-bit byte step takes the byte as it is. -/
theorem step8_eq : step8 = fun a b => times shift8 8 (a ^^^ b.setWidth 8) := by
  funext a b; simp [step8]

/-- Everything a `V8` checksum computation does to the working registers (10_state.md R22, R24, R25). -/
theorem runCrc_v8 (data : List Byte) (w : Work) :
    w.runCrc .v8 data =
      { w with acc8 := crc8 data, bitcnt := if data = [] then w.bitcnt else 8, pos := data.length } := by
  simp only [Work.runCrc, lane_bytes, Nat.zero_add, crc8, step8_eq]

/-- Everything a `V16` checksum computation does to the working registers (10_state.md R23, R24, R25). -/
theorem runCrc_v16 (data : List Byte) (w : Work) :
    w.runCrc .v16 data =
      { w with acc16 := crc16 data, bitcnt := if data = [] then w.bitcnt else 8, pos := data.length } := by
  simp only [Work.runCrc, lane_bytes, Nat.zero_add]
  rfl

/-- "Its value when a computation ends is the checksum" (10_state.md R22, R23). -/
@[simp] theorem runCrc_acc (v : Variant) (data : List Byte) (w : Work) : (w.runCrc v data).acc v = crc v data := by
  cases v <;> simp [runCrc_v8, runCrc_v16, Work.acc, crc]

section Kept

variable (v : Variant) (data : List Byte) (w : Work)

@[simp] theorem runCrc_n : (w.runCrc v data).n = w.n := by cases v <;> rfl
@[simp] theorem runCrc_size : (w.runCrc v data).size = w.size := by cases v <;> rfl
@[simp] theorem runCrc_rem : (w.runCrc v data).rem = w.rem := by cases v <;> rfl
@[simp] theorem runCrc_i : (w.runCrc v data).i = w.i := by cases v <;> rfl
@[simp] theorem runCrc_ph : (w.runCrc v data).ph = w.ph := by cases v <;> rfl
@[simp] theorem runCrc_l : (w.runCrc v data).l = w.l := by cases v <;> rfl

end Kept

/-- `BITCNT` stays in 0 to 8 (10_state.md R24). -/
theorem runCrc_bitcnt_le (v : Variant) (data : List Byte) {w : Work} (h : w.bitcnt ≤ 8) :
    (w.runCrc v data).bitcnt ≤ 8 := by
  cases v <;> simp only [runCrc_v8, runCrc_v16] <;> split <;> omega

end Sys2Proof.Machine
end

