-- ==== Sys2Proof/Laws/Scan.lean ====
section
/-! SUPPORT. What each phase of the scan's machine does, where its reads are inside the buffer. -/

namespace Sys2Proof.Machine

section Phases

variable {v : Variant} {buf : List Byte} {w : Work} {k : Nat}

/-- A phase that is not terminal gives no response, and the machine goes on with the next phase. -/
theorem runPhases_working (h : terminalResponse v buf w = .ok none) :
    runPhases v buf (k + 1) w = (phaseStep v buf w).bind (runPhases v buf k) := by
  cases hp : phaseStep v buf w <;> simp [runPhases, h, hp, bind, Except.bind]

/-- A terminal phase responds and leaves the machine in `IDLE` (42_defragmenter.md R186 to R188). -/
theorem runPhases_terminal {r : Response} (h : terminalResponse v buf w = .ok (some r)) :
    runPhases v buf (k + 1) w = .ok (r, { w with ph := .idle }) := by
  have hp : phaseStep v buf w = .ok { w with ph := .idle } := by
    cases e : w.ph <;> simp [terminalResponse, e] at h <;> simp [phaseStep, e]
  simp [runPhases, h, hp, bind, Except.bind]

/-- `HUNT` with no two-byte window left (R182). -/
theorem phaseHunt_end (h : w.l ≤ w.i + 1) : phaseHunt buf w = .ok { w with ph := .tDiscard } := by
  simp [phaseHunt, h]

/-- `HUNT` at an offset with two bytes (R182). -/
theorem phaseHunt_window (h : ¬ w.l ≤ w.i + 1) (hl : w.l = buf.length) :
    phaseHunt buf w =
      .ok (if isHeader (byteAt buf w.i) (byteAt buf (w.i + 1)) then { w with ph := .span } else { w with i := w.i + 1 }) := by
  simp only [phaseHunt, h, if_false, memRead_of_lt (show w.i < buf.length by omega),
    memRead_of_lt (show w.i + 1 < buf.length by omega), orFault_some, bind, Except.bind]
  split <;> rfl

/-- `SPAN` at a match too near the end (R183). -/
theorem phaseSpan_short (h : w.l - w.i < minSize v) :
    phaseSpan v buf w = .ok { w with rem := w.l - w.i, ph := .tNeed } := by
  simp [phaseSpan, h]

/-- `SPAN` at a match whose LEN byte can be read (R183). -/
theorem phaseSpan_sized (h : ¬ w.l - w.i < minSize v) (hl : w.l = buf.length) :
    phaseSpan v buf w =
      .ok { w with
        rem := w.l - w.i
        n := byteAt buf (w.i + 3)
        size := minSize v + (byteAt buf (w.i + 3)).toNat
        ph := if w.l - w.i < minSize v + (byteAt buf (w.i + 3)).toNat then .tNeed else .sum } := by
  have hm := minSize_eq v
  simp only [phaseSpan, h, if_false, memRead_of_lt (show w.i + 3 < buf.length by omega), orFault_some, bind, Except.bind]
  split <;> rfl

/-- `SUM` over a complete candidate (R184). -/
theorem phaseSum_complete (h : w.i + 2 + (2 + w.n.toNat) ≤ buf.length) :
    phaseSum v buf w = .ok { w.runCrc v ((buf.drop (w.i + 2)).take (2 + w.n.toNat)) with ph := .cmp } := by
  simp [phaseSum, readSpan_of_le h, bind, Except.bind]

/-- `CMP` with the candidate's checksum read (R185): found, or the resynchronisation transition. -/
theorem phaseCmp_read {ck : Checksum} (h : readChecksum v buf (w.i + 4 + w.n.toNat) = some ck) :
    phaseCmp v buf w =
      .ok (if w.acc v = ck then { w with ph := .tFound } else { w with i := w.i + 1, ph := .hunt }) := by
  simp only [phaseCmp, h, orFault_some, bind, Except.bind]
  split <;> rfl

/-- One phase moves `I` by at most one, but for `MINCHK`, which may set it to 0 (10_state.md R30). -/
theorem phaseHunt_i {w' : Work} (h : phaseHunt buf w = .ok w') : w'.i = w.i ∨ w'.i = w.i + 1 := by
  unfold phaseHunt at h
  split at h
  · cases h; exact .inl rfl
  · cases ha : memRead buf w.i <;> cases hb : memRead buf (w.i + 1) <;>
      simp [ha, hb, orFault, bind, Except.bind] at h
    split at h <;> cases h
    · exact .inl rfl
    · exact .inr rfl

/-- `BITCNT` stays in 0 to 8 through every phase (10_state.md R24). -/
theorem phaseStep_bitcnt_le {w' : Work} (h : phaseStep v buf w = .ok w') (hb : w.bitcnt ≤ 8) : w'.bitcnt ≤ 8 := by
  unfold phaseStep at h
  split at h
  · cases h; exact hb
  · cases h; unfold phaseMinchk; split <;> exact hb
  · unfold phaseHunt at h
    split at h
    · cases h; exact hb
    · cases e1 : memRead buf w.i <;> cases e2 : memRead buf (w.i + 1) <;> simp [e1, e2, orFault, bind, Except.bind] at h
      split at h <;> cases h <;> exact hb
  · unfold phaseSpan at h
    dsimp only at h
    split at h
    · cases h; exact hb
    · cases e1 : memRead buf (w.i + 3) <;> simp [e1, orFault, bind, Except.bind] at h
      split at h <;> cases h <;> exact hb
  · unfold phaseSum at h
    cases e1 : readSpan buf (w.i + 2) (2 + w.n.toNat) <;> simp [e1, orFault, bind, Except.bind] at h
    cases h
    exact runCrc_bitcnt_le v _ hb
  · unfold phaseCmp at h
    cases e1 : readChecksum v buf (w.i + 4 + w.n.toNat) <;> simp [e1, orFault, bind, Except.bind] at h
    split at h <;> cases h <;> exact hb
  all_goals cases h; exact hb

/-- Everything a finished scan leaves of the working registers that the invariant speaks of: the machine is back in `IDLE`, and
`BITCNT` is still 0 to 8. -/
theorem runPhases_inv {r : Response} {w' : Work} (h : runPhases v buf k w = .ok (r, w')) (hb : w.bitcnt ≤ 8) :
    w'.ph = .idle ∧ w'.bitcnt ≤ 8 := by
  induction k generalizing w with
  | zero => simp [runPhases] at h
  | succ k ih =>
    cases ht : terminalResponse v buf w with
    | error f => simp [runPhases, ht, bind, Except.bind] at h
    | ok o =>
      cases o with
      | none =>
        rw [runPhases_working ht] at h
        cases hp : phaseStep v buf w with
        | error f => simp [hp, Except.bind] at h
        | ok w1 => exact ih (by simpa [hp, Except.bind] using h) (phaseStep_bitcnt_le hp hb)
      | some r1 =>
        rw [runPhases_terminal ht] at h
        cases h
        exact ⟨rfl, hb⟩


end Phases

/-- The six phases that are not terminal give no response. -/
theorem terminalResponse_working {v : Variant} {buf : List Byte} {w : Work}
    (h : w.ph = .idle ∨ w.ph = .minchk ∨ w.ph = .hunt ∨ w.ph = .span ∨ w.ph = .sum ∨ w.ph = .cmp) :
    terminalResponse v buf w = .ok none := by
  rcases h with h | h | h | h | h | h <;> simp [terminalResponse, h]

/-- From `HUNT` at offset `i`, with four phases left for every byte from there on, the machine responds as the walk of R171 does from
that offset, and never reads outside the buffer (20_memory.md R59). -/
theorem runPhases_hunt (v : Variant) (buf : List Byte) :
    ∀ (suf : List Byte) (i fuel : Nat) (w : Work), w.ph = .hunt → w.l = buf.length → w.i = i → buf.drop i = suf → i < buf.length →
      4 * suf.length ≤ fuel →
      ∃ w', runPhases v buf fuel w = .ok (scanFrom v i suf, w') ∧ w'.ph = .idle ∧ w'.l = buf.length := by
  intro suf
  induction suf with
  | nil =>
    intro i fuel w hp hl hi hd hlt
    have := congrArg List.length hd
    simp at this; omega
  | cons a tl ih =>
    intro i fuel w hp hl hi hd hlt hf
    have hlen := congrArg List.length hd
    simp at hlen
    have hm := minSize_eq v
    subst hi
    obtain ⟨fuel, rfl⟩ : ∃ f, fuel = f + 4 := ⟨fuel - 4, by simp at hf; omega⟩
    have ha : byteAt buf w.i = a := by
      have := byteAt_drop buf w.i 0
      rw [hd] at this; simpa using this.symm
    cases tl with
    | nil =>
      have h1 : w.l ≤ w.i + 1 := by simp at hlen; omega
      rw [runPhases_working (terminalResponse_working (by simp [hp]))]
      simp only [phaseStep, hp, phaseHunt_end h1, Except.bind]
      have ht : terminalResponse v buf { w with ph := .tDiscard } = .ok (some (scanFrom v w.i [a])) := by
        have hh : buf.length - 1 = w.i := by simp at hlen; omega
        simp only [terminalResponse, hl, hh, memRead_of_lt hlt, orFault_some, bind, Except.bind, ha, scanFrom]
        by_cases e : a = head1
        · simp [e]
        · simp [e]; omega
      rw [runPhases_terminal ht]
      exact ⟨_, rfl, rfl, hl⟩
    | cons b rest =>
      have h1 : ¬ w.l ≤ w.i + 1 := by simp at hlen; omega
      have hb : byteAt buf (w.i + 1) = b := by
        have := byteAt_drop buf w.i 1
        rw [hd] at this; simpa using this.symm
      have hd' : buf.drop (w.i + 1) = b :: rest := by
        rw [← List.drop_drop, hd]; rfl
      rw [runPhases_working (terminalResponse_working (by simp [hp]))]
      simp only [phaseStep, hp, phaseHunt_window h1 hl, Except.bind, ha, hb]
      by_cases hh : isHeader a b = true
      swap
      · simp only [hh, scanFrom, Bool.false_eq_true, if_false]
        exact ih (w.i + 1) (fuel + 3) { w with i := w.i + 1, ph := .hunt } rfl hl rfl hd' (by simp at hlen; omega) (by simp at hf ⊢; omega)
      simp only [hh, if_true, scanFrom]
      rw [runPhases_working (terminalResponse_working (by simp))]
      simp only [phaseStep]
      by_cases hs : w.l - w.i < minSize v
      · rw [phaseSpan_short (w := { w with ph := .span }) hs]
        simp only [Except.bind]
        have ht : terminalResponse v buf { w with rem := w.l - w.i, ph := .tNeed } = .ok (some .needMoreData) := rfl
        rw [runPhases_terminal ht]
        have hj : judge v w.i (a :: b :: rest) = some .needMoreData := by
          simp only [judge]; rw [if_pos]; simp at hlen ⊢; omega
        rw [hj]
        exact ⟨_, rfl, rfl, hl⟩
      rw [phaseSpan_sized (w := { w with ph := .span }) hs hl]
      simp only [Except.bind]
      have hn : byteAt (a :: b :: rest) 3 = byteAt buf (w.i + 3) := by
        rw [← hd, byteAt_drop]
      have hlen' : (a :: b :: rest).length = w.l - w.i := by simp at hlen ⊢; omega
      by_cases hq : w.l - w.i < minSize v + (byteAt buf (w.i + 3)).toNat
      · simp only [hq, if_true]
        rw [runPhases_terminal (r := .needMoreData) rfl]
        have hj : judge v w.i (a :: b :: rest) = some .needMoreData := by
          simp only [judge, hlen', hs, if_false, hn, hq, if_true]
        rw [hj]
        exact ⟨_, rfl, rfl, hl⟩
      simp only [hq, if_false]
      rw [runPhases_working (terminalResponse_working (by simp))]
      simp only [phaseStep]
      rw [phaseSum_complete (by simp; omega)]
      simp only [Except.bind]
      rw [runPhases_working (terminalResponse_working (by simp))]
      simp only [phaseStep]
      obtain ⟨ck, hck⟩ := readChecksum_exists v (S := buf) (a := w.i + 4 + (byteAt buf (w.i + 3)).toNat) (by omega)
      rw [phaseCmp_read (ck := ck) (by simpa using hck)]
      simp only [Except.bind]
      have hacc : ∀ (w0 : Work) (d : List Byte), Work.acc { w0.runCrc v d with ph := .cmp } v = crc v d := by
        intro w0 d
        have := runCrc_acc v d w0
        cases v <;> simpa [Work.acc] using this
      simp only [hacc]
      simp only [runCrc_n, runCrc_i, runCrc_size, runCrc_l]
      have hsp : ((a :: b :: rest).drop 2).take (2 + (byteAt buf (w.i + 3)).toNat) = (buf.drop (w.i + 2)).take (2 + (byteAt buf (w.i + 3)).toNat) := by
        rw [← hd, List.drop_drop]
      have hrc : readChecksum v (a :: b :: rest) (4 + (byteAt buf (w.i + 3)).toNat) = some ck := by
        rw [← hd, readChecksum_drop, ← hck]; congr 1; omega
      by_cases he : crc v ((buf.drop (w.i + 2)).take (2 + (byteAt buf (w.i + 3)).toNat)) = ck
      · simp only [he, if_true]
        have hj : judge v w.i (a :: b :: rest) = some (.frameFound ⟨byteAt buf (w.i + 2), (buf.drop (w.i + 4)).take (byteAt buf (w.i + 3)).toNat, ck⟩ (w.i + minSize v + (byteAt buf (w.i + 3)).toNat)) := by
          simp only [judge, hlen', hs, if_false, hn, hq, hrc, hsp, he, if_true]
          rw [← hd, List.drop_drop, byteAt_drop]
        rw [hj]
        have ht : ∀ w0 : Work, w0.ph = .tFound → w0.i = w.i → w0.n = byteAt buf (w.i + 3) → w0.size = minSize v + (byteAt buf (w.i + 3)).toNat →
            terminalResponse v buf w0 = .ok (some (.frameFound ⟨byteAt buf (w.i + 2), (buf.drop (w.i + 4)).take (byteAt buf (w.i + 3)).toNat, ck⟩ (w.i + minSize v + (byteAt buf (w.i + 3)).toNat))) := by
          intro w0 h1 h2 h3 h4
          simp only [terminalResponse, h1, h2, h3, h4, memRead_of_lt (show w.i + 2 < buf.length by omega), readSpan_of_le (show w.i + 4 + (byteAt buf (w.i + 3)).toNat ≤ buf.length by omega), hck, orFault_some, bind, Except.bind]
          simp only [Nat.add_assoc]
        obtain ⟨f1, rfl⟩ : ∃ f1, fuel = f1 + 1 := ⟨fuel - 1, by simp at hf; omega⟩
        rw [runPhases_terminal (ht _ (by simp) (by simp) (by simp) (by simp))]
        exact ⟨_, rfl, rfl, by simpa using hl⟩
      · simp only [he, if_false]
        have hj : judge v w.i (a :: b :: rest) = none := by
          simp only [judge, hlen', hs, if_false, hn, hq, hrc, hsp]
          rw [if_neg]; simpa using Ne.symm he
        rw [hj]
        exact ih (w.i + 1) fuel _ rfl (by simpa using hl) (by simp) hd' (by simp at hlen; omega) (by simp at hf ⊢; omega)

/-- Everything a scan on the working registers can do: it ends (42_defragmenter.md R191), never reads outside the buffer
(20_memory.md R59), responds with `scan`, and leaves the machine in `IDLE`. -/
theorem runScan_spec (v : Variant) (buf : List Byte) (w : Work) :
    ∃ w', runScan v buf w = .ok (scan v buf, w') ∧ w'.ph = .idle ∧ w'.l = buf.length := by
  have hm := minSize_eq v
  obtain ⟨n, hn⟩ : ∃ n, phaseBound buf = n + 4 := ⟨4 * buf.length, rfl⟩
  simp only [runScan, hn]
  rw [runPhases_working (terminalResponse_working (by simp))]
  simp only [phaseStep, phaseIdle, Except.bind]
  rw [runPhases_working (terminalResponse_working (by simp))]
  simp only [phaseStep, phaseMinchk, Except.bind]
  by_cases h : buf.length < minSize v
  · simp only [h, if_true, scan]
    rw [runPhases_terminal (r := .needMoreData) rfl]
    exact ⟨_, rfl, rfl, rfl⟩
  · simp only [h, if_false, scan]
    exact runPhases_hunt v buf buf 0 (n+2) _ rfl rfl rfl rfl (by omega) (by simp [phaseBound] at hn; omega)

end Sys2Proof.Machine
end

