-- ==== Sys2Proof/Laws/Buffer.lean ====
section
/-! SUPPORT. The operations on `RXBUF` keep its bound (10_state.md R36), and everything `NEXTv` can do. -/

namespace Sys2Proof.Machine

variable {cap : Option Nat} {b chunk : List Byte}

/-- The empty buffer fits. -/
theorem rxbufFits_nil : rxbufFits cap [] = true := by cases cap <;> simp [rxbufFits, overflows]

/-- What `FEED` appends fits, when it does not overflow (43_owned_buffer.md R215). -/
theorem rxbufFits_append (h : overflows cap b.length chunk.length = false) : rxbufFits cap (appendChunk b chunk) = true := by
  cases cap
  · simp [rxbufFits, overflows]
  · simpa [rxbufFits, overflows, appendChunk] using h

/-- A buffer that fits still fits after a removal at its front (43_owned_buffer.md R216). -/
theorem rxbufFits_dropFront (k : Nat) (h : rxbufFits cap b = true) : rxbufFits cap (dropFront k b) = true := by
  cases cap
  · simp [rxbufFits, overflows]
  · simp [rxbufFits, overflows, dropFront] at h ⊢; omega

/-- The trim an outcome orders removes leading bytes (43_owned_buffer.md R217). -/
theorem trimOrdered_eq (r : Response) (b : List Byte) : ∃ k, trimOrdered r b = dropFront k b := by
  cases r
  case frameFound f consumed => exact ⟨consumed, rfl⟩
  case noFrameDiscard n => exact ⟨n, rfl⟩
  all_goals exact ⟨0, rfl⟩

/-- The trim an outcome orders leaves a buffer that fits. -/
theorem rxbufFits_trimOrdered (r : Response) (h : rxbufFits cap b = true) : rxbufFits cap (trimOrdered r b) = true := by
  obtain ⟨k, e⟩ := trimOrdered_eq r b
  rw [e]; exact rxbufFits_dropFront k h

/-- Everything `runNext` can do (43_owned_buffer.md R217, 30_encoding.md R93). -/
theorem runNext_cases (v : Variant) (s : State) :
    (s.cfg.profile = .owned ∧ ∃ w : Work, w.ph = .idle ∧ runNext v s = .next { s with
      work := w
      rxbuf := trimOrdered (scan v s.rxbuf) s.rxbuf
      response := some (scan v s.rxbuf) }) ∨
      (s.cfg.profile = .pure ∧ runNext v s = .next { s with response := some .illegalOp }) := by
  obtain ⟨w, hw, hp, -⟩ := runScan_spec v s.rxbuf s.work
  cases h : s.cfg.profile
  · exact .inr ⟨rfl, inOwned_pure h _⟩
  · refine .inl ⟨rfl, w, hp, ?_⟩
    rw [runNext, inOwned_owned h, hw]
    rfl

end Sys2Proof.Machine
end

