-- ==== Sys2Proof/Laws/Codec.lean ====
section
/-! SUPPORT. Everything the shared encoder and decoder can do. -/

namespace Sys2Proof.Machine

/-- Everything `runEncoder` does with encodable arguments (41_frame_codec.md R142, R143). -/
theorem runEncoder_encodable {v : Variant} {c : Int} {p : List Byte} (h : encodable c p = true) (s : State) :
    runEncoder v c p s =
      .next { s with
        work := { s.work with n := lenByte p }.runCrc v (covered (commandByte c) p)
        response := some (.done (.wire (layout (commandByte c) p (crc v (covered (commandByte c) p))))) } := by
  simp [runEncoder, h, respond_eq]

/-- Everything `runEncoder` does otherwise (41_frame_codec.md R141, 60_exceptions.md R236). -/
theorem runEncoder_refused {v : Variant} {c : Int} {p : List Byte} (h : encodable c p = false) (s : State) :
    runEncoder v c p s = .next { s with response := some .invalidArgument } := by
  simp [runEncoder, h, raiseError_eq]

/-- The precondition of the encoders (41_frame_codec.md R141), as a proposition. -/
theorem encodable_iff {c : Int} {p : List Byte} : encodable c p = true ↔ 0 ≤ c ∧ c ≤ 255 ∧ p.length ≤ 255 := by
  simp only [encodable, commandInRange, payloadInRange, Bool.and_eq_true, decide_eq_true_eq, and_assoc]
  rfl

/-- Everything `runDecoder` can do: it never reads outside the span (20_memory.md R59), it responds with `decodeOutcome`, and of the
working registers it changes `N`, `BITCNT`, `POS` and the accumulators only. -/
theorem runDecoder_spec (v : Variant) (bytes : List Byte) (w : Work) :
    ∃ w', runDecoder v bytes w = .ok (decodeOutcome v bytes, w') ∧ w'.ph = w.ph ∧ w'.i = w.i ∧ w'.l = w.l ∧
      w'.size = w.size ∧ w'.rem = w.rem ∧ (w.bitcnt ≤ 8 → w'.bitcnt ≤ 8) := by
  have hm := minSize_eq v
  by_cases h1 : bytes.length < minSize v
  · exact ⟨w, by simp [runDecoder, decodeOutcome, h1], rfl, rfl, rfl, rfl, rfl, id⟩
  have r0 := memRead_of_lt (show 0 < bytes.length by omega)
  have r1 := memRead_of_lt (show 1 < bytes.length by cases v <;> simp [ckSize] at hm <;> omega)
  have r2 := memRead_of_lt (show 2 < bytes.length by cases v <;> simp [ckSize] at hm <;> omega)
  have r3 := memRead_of_lt (show 3 < bytes.length by cases v <;> simp [ckSize] at hm <;> omega)
  by_cases h2 : byteAt bytes 0 ≠ head1 ∨ byteAt bytes 1 ≠ head2
  · refine ⟨w, ?_, rfl, rfl, rfl, rfl, rfl, id⟩
    simp only [runDecoder, decodeOutcome, h1, r0, r1, orFault_some, if_false, bind, Except.bind]
    rw [if_pos h2, if_pos h2]
  by_cases h3 : bytes.length < minSize v + (byteAt bytes 3).toNat
  · refine ⟨{ w with n := byteAt bytes 3 }, ?_, rfl, rfl, rfl, rfl, rfl, id⟩
    simp only [runDecoder, decodeOutcome, h1, r0, r1, r3, orFault_some, if_false, bind, Except.bind]
    rw [if_neg h2, if_neg h2]
    simp only [h3, if_true]
  have hb := readSpan_of_le (S := bytes) (a := 2) (n := 2 + (byteAt bytes 3).toNat) (by omega)
  have hp := readSpan_of_le (S := bytes) (a := 4) (n := (byteAt bytes 3).toNat) (by omega)
  have hs := readChecksum_isSome v bytes (4 + (byteAt bytes 3).toNat)
  rw [decide_eq_true (by omega)] at hs
  obtain ⟨k, hk⟩ := Option.isSome_iff_exists.mp hs
  refine ⟨{ w with n := byteAt bytes 3 }.runCrc v ((bytes.drop 2).take (2 + (byteAt bytes 3).toNat)), ?_, by simp, by simp,
    by simp, by simp, by simp, fun h => runCrc_bitcnt_le (w := { w with n := byteAt bytes 3 }) v _ h⟩
  simp only [runDecoder, decodeOutcome, h1, r0, r1, r2, r3, hb, hp, hk, orFault_some, if_false, bind, Except.bind]
  rw [if_neg h2, if_neg h2]
  simp only [h3, if_false, runCrc_acc]
  by_cases he : crc v ((bytes.drop 2).take (2 + (byteAt bytes 3).toNat)) = k
  · simp [he]
  · simp [he, Ne.symm he]

/-- A decoder's outcome is a Frame or a failure, never anything else (41_frame_codec.md R154). -/
theorem decodeOutcome_cases (v : Variant) (bytes : List Byte) :
    (∃ f, decodeOutcome v bytes = .done (.frame f)) ∨ ∃ r, decodeOutcome v bytes = .decodeFailure r := by
  unfold decodeOutcome
  dsimp only
  split_ifs <;> simp

end Sys2Proof.Machine
end

