-- ==== Sys2Proof/Laws/Layout.lean ====
section
/-! SUPPORT. Reading back what `layout` wrote: each field of a frame, whatever follows the frame. -/

namespace Sys2Proof.Machine

/-- The variant of a checksum computed for a variant. -/
theorem checksumVariant_crc (v : Variant) (d : List Byte) : checksumVariant (crc v d) = v := by cases v <;> rfl

/-- A frame has at least 5 bytes (30_encoding.md R84). -/
theorem five_le_minSize (v : Variant) : 5 ≤ minSize v := by cases v <;> decide

section Fields

variable (c : Byte) (p : List Byte) (ck : Checksum) (rest : List Byte)

@[simp] theorem byteAt_layout_0 : byteAt (layout c p ck ++ rest) 0 = head1 := by rw [layout_eq]; rfl
@[simp] theorem byteAt_layout_1 : byteAt (layout c p ck ++ rest) 1 = head2 := by rw [layout_eq]; rfl
@[simp] theorem byteAt_layout_2 : byteAt (layout c p ck ++ rest) 2 = c := by rw [layout_eq]; rfl
@[simp] theorem byteAt_layout_3 : byteAt (layout c p ck ++ rest) 3 = lenByte p := by rw [layout_eq]; rfl

/-- The checksum field, where the LEN byte puts it (30_encoding.md R85). -/
theorem readChecksum_layout : readChecksum (checksumVariant ck) (layout c p ck ++ rest) (4 + p.length) = some ck := by
  have e : layout c p ck ++ rest = ([head1, head2, c, lenByte p] ++ p) ++ (checksumBytes ck ++ rest) := by simp [layout_eq]
  have hl : ([head1, head2, c, lenByte p] ++ p).length = 4 + p.length := by simp; omega
  have h : readChecksum (checksumVariant ck) (([head1, head2, c, lenByte p] ++ p) ++ (checksumBytes ck ++ rest)) (4 + p.length) =
      readChecksum (checksumVariant ck) (checksumBytes ck ++ rest) 0 := by
    rw [← hl, ← Nat.add_zero (List.length _), ← readChecksum_drop, List.drop_left]
  rw [e, h]
  cases ck <;> simp [readChecksum, checksumVariant, memRead, checksumBytes, joinBytes_hi_lo]

/-- The bytes the checksum covers (30_encoding.md R83). -/
theorem covered_layout : ((layout c p ck ++ rest).drop 2).take (2 + p.length) = covered c p := by
  have h : (layout c p ck ++ rest).drop 2 = covered c p ++ (checksumBytes ck ++ rest) := by simp [layout]
  rw [h, List.take_left' (by simp [covered]; omega)]

/-- The payload field. -/
theorem payload_layout : ((layout c p ck ++ rest).drop 4).take p.length = p := by
  have h : (layout c p ck ++ rest).drop 4 = p ++ (checksumBytes ck ++ rest) := by simp [layout_eq]
  rw [h, List.take_left]

end Fields

end Sys2Proof.Machine
end

