-- ==== Sys2Proof/Laws/PerInstr.lean ====
section
/-! SUPPORT. One lemma per instruction: the input that `encode` gives it carries the fixed bits of its row of spec/opcode_table.json,
whatever the operands. -/

namespace Sys2Proof.Laws.RowBits

open Sys2Proof.Machine

/-- The row's "mask", as the table prints it. -/
def rowMask : Instr → BitVec 32
  | .crc8 _ | .crc16 _ | .enc8 _ _ | .enc16 _ _ | .dec8 _ | .dec16 _ | .scan8 _ | .scan16 _ => 0xF#32
  | .feed _ | .trim _ | .next8 | .next16 | .clear | .reservedD | .reservedE | .reservedF => 0xF#32
  | .frame8 _ _ _ | .frame16 _ _ _ => 0xFFFF0000#32

/-- The row's "match". -/
def rowMatch : Instr → BitVec 32
  | .crc8 _ => 0x0#32
  | .crc16 _ => 0x1#32
  | .enc8 _ _ => 0x2#32
  | .enc16 _ _ => 0x3#32
  | .dec8 _ => 0x4#32
  | .dec16 _ => 0x5#32
  | .scan8 _ => 0x6#32
  | .scan16 _ => 0x7#32
  | .feed _ => 0x8#32
  | .trim _ => 0x9#32
  | .next8 => 0xA#32
  | .next16 => 0xB#32
  | .clear => 0xC#32
  | .reservedD => 0xD#32
  | .reservedE => 0xE#32
  | .reservedF => 0xF#32
  | .frame8 _ _ _ | .frame16 _ _ _ => 0xAABB0000#32

/-- The bits the table gives an input: `OP`, or a frame's first four bytes with offset 0 most significant (30_encoding.md R82). -/
def tableBits : Request → BitVec 32
  | .op code _ => code.setWidth 32
  | .wire _ b => byteAt b 0 ++ byteAt b 1 ++ byteAt b 2 ++ byteAt b 3

/-- The encoded instruction matches its row. -/
def Statement (i : Instr) : Prop := tableBits (encode i) &&& rowMask i = rowMatch i

/-- The mask keeps a frame's header and nothing else. -/
theorem header_bits (c n : Byte) : (0xAA#8 ++ 0xBB#8 ++ c ++ n : BitVec 32) &&& 0xFFFF0000#32 = 0xAABB0000#32 := by
  apply BitVec.eq_of_getLsbD_eq
  intro k hk
  simp only [BitVec.getLsbD_and, BitVec.getLsbD_append]
  interval_cases k <;> simp

theorem crc8 (data : List Byte) : Statement (.crc8 data) := by simp [Statement, encode, tableBits, rowMask, rowMatch]
theorem crc16 (data : List Byte) : Statement (.crc16 data) := by simp [Statement, encode, tableBits, rowMask, rowMatch]
theorem enc8 (c : Int) (p : List Byte) : Statement (.enc8 c p) := by simp [Statement, encode, tableBits, rowMask, rowMatch]
theorem enc16 (c : Int) (p : List Byte) : Statement (.enc16 c p) := by simp [Statement, encode, tableBits, rowMask, rowMatch]
theorem dec8 (b : List Byte) : Statement (.dec8 b) := by simp [Statement, encode, tableBits, rowMask, rowMatch]
theorem dec16 (b : List Byte) : Statement (.dec16 b) := by simp [Statement, encode, tableBits, rowMask, rowMatch]
theorem scan8 (b : List Byte) : Statement (.scan8 b) := by simp [Statement, encode, tableBits, rowMask, rowMatch]
theorem scan16 (b : List Byte) : Statement (.scan16 b) := by simp [Statement, encode, tableBits, rowMask, rowMatch]
theorem feed (b : List Byte) : Statement (.feed b) := by simp [Statement, encode, tableBits, rowMask, rowMatch]
theorem trim (k : Nat) : Statement (.trim k) := by simp [Statement, encode, tableBits, rowMask, rowMatch]
theorem next8 : Statement .next8 := by simp [Statement, encode, tableBits, rowMask, rowMatch]
theorem next16 : Statement .next16 := by simp [Statement, encode, tableBits, rowMask, rowMatch]
theorem clear : Statement .clear := by simp [Statement, encode, tableBits, rowMask, rowMatch]
theorem reservedD : Statement .reservedD := by simp [Statement, encode, tableBits, rowMask, rowMatch]
theorem reservedE : Statement .reservedE := by simp [Statement, encode, tableBits, rowMask, rowMatch]
theorem reservedF : Statement .reservedF := by simp [Statement, encode, tableBits, rowMask, rowMatch]
theorem frame8 (c : Byte) (p : List Byte) (ck : Byte) : Statement (.frame8 c p ck) := header_bits c (lenByte p)
theorem frame16 (c : Byte) (p : List Byte) (ck : Half) : Statement (.frame16 c p ck) := header_bits c (lenByte p)

end Sys2Proof.Laws.RowBits
end

