-- ==== Sys2Proof/Laws/Walk.lean ====
section
/-! SUPPORT. The walk of the scan function, read by offsets into the whole buffer. -/

namespace Sys2Proof.Machine

/-- What the walk does at a header match, in the terms of the closed form (42_defragmenter.md R190). -/
theorem judge_drop (v : Variant) (buf : List Byte) (i : Nat) :
    judge v i (buf.drop i) =
      if completeAt v buf i then
        if validAt v buf i then
          some (.frameFound (candidateAt v buf i) (i + minSize v + (byteAt buf (i + 3)).toNat))
        else none
      else some .needMoreData := by
  have e3 : byteAt (buf.drop i) 3 = byteAt buf (i + 3) := byteAt_drop ..
  have e2 : byteAt (buf.drop i) 2 = byteAt buf (i + 2) := byteAt_drop ..
  unfold judge
  simp only [List.length_drop, e3, e2, readChecksum_drop, List.drop_drop]
  by_cases h1 : buf.length - i < minSize v
  · have : completeAt v buf i = false := by simp [completeAt]; omega
    simp [h1, this]
  by_cases h2 : buf.length - i < minSize v + (byteAt buf (i + 3)).toNat
  · have : completeAt v buf i = false := by simp [completeAt]; omega
    simp [h1, h2, this]
  have hc : completeAt v buf i = true := by simp [completeAt]; omega
  have hv : validAt v buf i = decide (readChecksum v buf (i + (4 + (byteAt buf (i + 3)).toNat)) =
      some (candidateAt v buf i).checksum) := by
    simp [validAt, hc, Nat.add_assoc]
  simp only [h1, h2, hc, hv, if_false, if_true, candidateAt]
  by_cases hk : readChecksum v buf (i + (4 + (byteAt buf (i + 3)).toNat)) =
      some (crc v (List.take (2 + (byteAt buf (i + 3)).toNat) (List.drop (i + 2) buf))) <;> simp [hk]

/-- A header match, read from the rest of the buffer. -/
theorem matchAt_drop {buf : List Byte} {i : Nat} {a b : Byte} {rest : List Byte} (h : buf.drop i = a :: b :: rest) :
    matchAt buf i = isHeader a b := by
  have hl := congrArg List.length h
  simp at hl
  have ha := byteAt_drop buf i 0
  have hb := byteAt_drop buf i 1
  rw [h] at ha hb
  simp at ha hb
  simp [matchAt, ← ha, ← hb]
  intro _; omega

/-- Two bytes of a buffer, as a list. -/
theorem drop_eq_two {buf : List Byte} {i : Nat} (h : i + 2 ≤ buf.length) : ∃ a b rest, buf.drop i = a :: b :: rest := by
  rcases hd : buf.drop i with _ | ⟨a, _ | ⟨b, rest⟩⟩
  · have := congrArg List.length hd; simp at this; omega
  · have := congrArg List.length hd; simp at this; omega
  · exact ⟨a, b, rest, rfl⟩

/-- The walk passes over an offset that is no header match or whose candidate is rejected (42_defragmenter.md R177). -/
theorem scanFrom_pass {v : Variant} {buf : List Byte} {i : Nat} (hi : i + 2 ≤ buf.length)
    (h : matchAt buf i = true → rejectedAt v buf i = true) : scanFrom v i (buf.drop i) = scanFrom v (i + 1) (buf.drop (i + 1)) := by
  obtain ⟨a, b, rest, hd⟩ := drop_eq_two hi
  have hd' : buf.drop (i + 1) = b :: rest := by rw [← List.drop_drop, hd]; rfl
  have hj := judge_drop v buf i
  rw [matchAt_drop hd] at h
  rw [hd] at hj
  rw [hd', hd]
  simp only [scanFrom]
  by_cases hm : isHeader a b = true
  · have := h hm
    simp [rejectedAt] at this
    simp [hm, hj, this]
  · simp [hm]

/-- The walk at a header match whose candidate is not rejected ends there. -/
theorem scanFrom_end {v : Variant} {buf : List Byte} {i : Nat} {r : Response} (hm : matchAt buf i = true)
    (hj : judge v i (buf.drop i) = some r) : scanFrom v i (buf.drop i) = r := by
  obtain ⟨a, b, rest, hd⟩ := drop_eq_two (buf := buf) (i := i) (by simp [matchAt] at hm; exact hm.1)
  rw [matchAt_drop hd] at hm
  rw [hd] at hj ⊢
  simp [scanFrom, hm, hj]

end Sys2Proof.Machine
end

