-- ==== Sys2Proof/Machine/Text.lean ====
section
/-! DEFINITION. The textual notation of 30_encoding.md R97: "its mnemonic followed by its operands, byte sequences as space-separated
two-digit hexadecimal bytes in square brackets, and the outcome after `->`". Columns are one space wide (log 23). -/

namespace Sys2Proof.Machine

/-- The character of a hexadecimal digit. -/
def hexDigit (d : Nat) : Char := "0123456789ABCDEF".toList.getD (d % 16) '0'

/-- A byte as two digits. -/
def byteText (b : Byte) : String := String.ofList [hexDigit (b.toNat / 16), hexDigit b.toNat]

/-- A byte sequence. -/
def bytesText (bs : List Byte) : String := "[" ++ " ".intercalate (bs.map byteText) ++ "]"

/-- A checksum: two digits or four. -/
def checksumText : Checksum → String
  | .c8 k => "0x" ++ byteText k
  | .c16 k => "0x" ++ byteText (hiByte k) ++ byteText (loByte k)

/-- A command operand: two digits where it fits a byte, else in decimal (log 23). -/
def commandText (c : Int) : String := if commandInRange c then "cmd=0x" ++ byteText (commandByte c) else "cmd=" ++ toString c

/-- A Frame. -/
def frameText (f : Frame) : String :=
  "Frame(cmd=0x" ++ byteText f.command ++ ", payload=" ++ bytesText f.payload ++ ", ck=" ++ checksumText f.checksum ++ ")"

/-- An operation. -/
def instrText : Instr → String
  | .crc8 data => "CRC8 " ++ bytesText data
  | .crc16 data => "CRC16 " ++ bytesText data
  | .enc8 c p => "ENC8 " ++ commandText c ++ ", " ++ bytesText p
  | .enc16 c p => "ENC16 " ++ commandText c ++ ", " ++ bytesText p
  | .dec8 bytes => "DEC8 " ++ bytesText bytes
  | .dec16 bytes => "DEC16 " ++ bytesText bytes
  | .scan8 buf => "SCAN8 " ++ bytesText buf
  | .scan16 buf => "SCAN16 " ++ bytesText buf
  | .feed chunk => "FEED " ++ bytesText chunk
  | .trim k => "TRIM " ++ toString k
  | .next8 => "NEXT8"
  | .next16 => "NEXT16"
  | .clear => "CLEAR"
  | .reservedD => "0xD"
  | .reservedE => "0xE"
  | .reservedF => "0xF"
  | .frame8 c p k => "FRAME8 " ++ bytesText (layout c p (.c8 k))
  | .frame16 c p k => "FRAME16 " ++ bytesText (layout c p (.c16 k))

/-- What a `Done` carries. -/
def resultText : Result → String
  | .nothing => "Done"
  | .sum8 k => "Done(" ++ checksumText (.c8 k) ++ ")"
  | .sum16 k => "Done(" ++ checksumText (.c16 k) ++ ")"
  | .wire bytes => "Done(" ++ bytesText bytes ++ ")"
  | .frame f => "Done(" ++ frameText f ++ ")"

/-- An outcome. -/
def responseText : Response → String
  | .done r => resultText r
  | .invalidArgument => "InvalidArgument"
  | .decodeFailure _ => "DecodeFailure"
  | .needMoreData => "NeedMoreData"
  | .frameFound f consumed => "FrameFound(" ++ frameText f ++ ", consumed=" ++ toString consumed ++ ")"
  | .noFrameDiscard n => "NoFrameDiscard(" ++ toString n ++ ")"
  | .illegalOp => "IllegalOp"
  | .bufferFull => "BufferFull"
  | .trimRange => "TrimRange"

/-- An operation and its outcome. -/
def exchangeText (i : Instr) (r : Response) : String := instrText i ++ " -> " ++ responseText r

end Sys2Proof.Machine
end

