-- ==== Sys2Proof/Tests/Slice0.lean ====
section
/-! SUPPORT. Tests: ill-formed terms, words written out from the spec's encodings, one step each on the vectors of
95_test_vectors.md, and a witness for the hypotheses of every statement that has some. -/

-- Many small kernel checks: one after the other, since each waiting one holds a thread of its own.
set_option Elab.async false

namespace Sys2Proof.Tests

open Sys2Proof.Machine

/-! ## Helpers -/

/-- A block fresh from reset, with the given profile, `BUFCAP` and buffer. -/
def blockWith (profile : Profile) (cap : Option Nat) (rx : List Byte) : State :=
  { State.resetWith { profile := profile, bufcap := cap, cmdw := none } with rxbuf := rx }

/-- A block that owns its buffer. -/
def owned (rx : List Byte) : State := blockWith .owned none rx

/-- A block that holds nothing. -/
def pureBlock : State := blockWith .pure none []

/-- The answer is a next state that satisfies `P`. -/
def nextIs (a : Answer) (P : State → Prop) [DecidablePred P] : Bool :=
  match a with
  | .next t => decide (P t)
  | .fault _ | .refused _ => false

/-- What `nextIs` says. -/
theorem exists_next {a : Answer} {P : State → Prop} [DecidablePred P] (h : nextIs a P = true) : ∃ t, a = .next t ∧ P t := by
  cases a with
  | next t => exact ⟨t, rfl, by simpa [nextIs] using h⟩
  | fault f => simp [nextIs] at h
  | refused r => simp [nextIs] at h

/-- One step that serves an operation request gives this response and leaves this buffer. -/
def answers (code : BitVec 4) (o : Operands) (s : State) (r : Response) (rx : List Byte) : Bool :=
  nextIs (step (s.setRequests [.op code o])) fun t => t.response = some r ∧ t.rxbuf = rx ∧ t.requests = []

/-- One step that is shown a span from the link gives this response. -/
def recognises (v : Variant) (bytes : List Byte) (r : Response) : Bool :=
  nextIs (step (pureBlock.setRequests [.wire v bytes])) fun t => t.response = some r

/-! ## WellFormed (30_encoding.md R82; 95_test_vectors.md T30) -/

theorem test_long_frame8_ill_formed : (Instr.frame8 0#8 (List.replicate 256 0#8) 0#8).wellFormed = false := by decide +kernel
theorem test_long_frame16_ill_formed : (Instr.frame16 0#8 (List.replicate 256 0#8) 0#16).wellFormed = false := by decide +kernel
theorem test_longest_frame_well_formed : (Instr.frame8 0#8 (List.replicate 255 0#8) 0#8).wellFormed = true := by decide +kernel
theorem test_command_256_not_posable : (Instr.enc8 256 []).posable (some 8) = false := by decide
theorem test_command_minus_1_not_posable : (Instr.enc16 (-1) []).posable (some 8) = false := by decide

/-! ## Decoding: every row's word, written out bit by bit from 30_encoding.md R91, R80 and R81 -/

theorem test_word_crc8 : decode (.op 0b0000#4 { bytes := [0x31#8] }) = .ok (.crc8 [0x31#8]) := rfl
theorem test_word_crc16 : decode (.op 0b0001#4 { bytes := [0x31#8] }) = .ok (.crc16 [0x31#8]) := rfl
theorem test_word_enc8 : decode (.op 0b0010#4 { command := 7, bytes := [0x31#8] }) = .ok (.enc8 7 [0x31#8]) := rfl
theorem test_word_enc16 : decode (.op 0b0011#4 { command := 7, bytes := [0x31#8] }) = .ok (.enc16 7 [0x31#8]) := rfl
theorem test_word_dec8 : decode (.op 0b0100#4 { bytes := [0x31#8] }) = .ok (.dec8 [0x31#8]) := rfl
theorem test_word_dec16 : decode (.op 0b0101#4 { bytes := [0x31#8] }) = .ok (.dec16 [0x31#8]) := rfl
theorem test_word_scan8 : decode (.op 0b0110#4 { bytes := [0x31#8] }) = .ok (.scan8 [0x31#8]) := rfl
theorem test_word_scan16 : decode (.op 0b0111#4 { bytes := [0x31#8] }) = .ok (.scan16 [0x31#8]) := rfl
theorem test_word_feed : decode (.op 0b1000#4 { bytes := [0x31#8] }) = .ok (.feed [0x31#8]) := rfl
theorem test_word_trim : decode (.op 0b1001#4 { count := 3 }) = .ok (.trim 3) := rfl
theorem test_word_next8 : decode (.op 0b1010#4 {}) = .ok .next8 := rfl
theorem test_word_next16 : decode (.op 0b1011#4 {}) = .ok .next16 := rfl
theorem test_word_clear : decode (.op 0b1100#4 {}) = .ok .clear := rfl
theorem test_word_reservedD : decode (.op 0b1101#4 {}) = .ok .reservedD := rfl
theorem test_word_reservedE : decode (.op 0b1110#4 {}) = .ok .reservedE := rfl
theorem test_word_reservedF : decode (.op 0b1111#4 {}) = .ok .reservedF := rfl

/-- `10101010 10111011`, CMD `00010000`, LEN `00000010`, two payload bytes, CRC8 (T23). -/
theorem test_word_frame8 : (decode (.wire .v8 [0b10101010#8, 0b10111011#8, 0b00010000#8, 0b00000010#8, 0xAA#8, 0xBB#8, 0xF0#8])).toOption =
    some (.frame8 0x10#8 [0xAA#8, 0xBB#8] 0xF0#8) := by decide +kernel

/-- The same under `V16`: CRC16_HI, then CRC16_LO (T23). -/
theorem test_word_frame16 :
    (decode (.wire .v16 [0b10101010#8, 0b10111011#8, 0b00010000#8, 0b00000010#8, 0xAA#8, 0xBB#8, 0xF7#8, 0x9B#8])).toOption =
      some (.frame16 0x10#8 [0xAA#8, 0xBB#8] 0xF79B#16) := by decide +kernel

theorem test_table_word_frame : decodeTableWord 32 0xAABB0501 = some (.frame8 0x05#8 [0x00#8] 0x00#8) := by decide +kernel
theorem test_table_word_no_header : decodeTableWord 32 0xAABA0501 = none := by decide +kernel

/-- A table word placed at reset is served by the next step. -/
theorem test_fetch_word : nextIs (step (State.reset.withFetchWord 8 0b0001)) (fun t => t.response = some (.done (.sum16 0xFFFF#16))) = true := by
  decide +kernel

/-! ## One step each -/

/-- T1. -/
theorem test_crc8_check_value : answers 0x0#4 { bytes := [0x31#8, 0x32#8, 0x33#8, 0x34#8, 0x35#8, 0x36#8, 0x37#8, 0x38#8, 0x39#8] }
    pureBlock (.done (.sum8 0xA2#8)) [] = true := by decide +kernel
/-- T7. -/
theorem test_crc8_top_bit : answers 0x0#4 { bytes := [0x80#8] } pureBlock (.done (.sum8 0x7A#8)) [] = true := by decide +kernel
/-- T2. -/
theorem test_crc16_check_value : answers 0x1#4 { bytes := [0x31#8, 0x32#8, 0x33#8, 0x34#8, 0x35#8, 0x36#8, 0x37#8, 0x38#8, 0x39#8] }
    pureBlock (.done (.sum16 0x4B37#16)) [] = true := by decide +kernel
/-- T12. -/
theorem test_crc16_zero : answers 0x1#4 { bytes := [0xFF#8, 0xFF#8] } pureBlock (.done (.sum16 0x0000#16)) [] = true := by decide +kernel
/-- T27: the longest `V8` frame. -/
theorem test_enc8_longest : answers 0x2#4 { command := 0x42, bytes := (List.range 255).map (BitVec.ofNat 8) } pureBlock
    (.done (.wire ([0xAA#8, 0xBB#8, 0x42#8, 0xFF#8] ++ (List.range 255).map (BitVec.ofNat 8) ++ [0x6F#8]))) [] = true := by decide +kernel
/-- T30. -/
theorem test_enc8_command_256 : answers 0x2#4 { command := 256 } pureBlock .invalidArgument [] = true := by decide +kernel
/-- T24. -/
theorem test_enc16_big_endian : answers 0x3#4 { command := 0x02, bytes := [0x01#8, 0x02#8, 0x03#8] } pureBlock
    (.done (.wire [0xAA#8, 0xBB#8, 0x02#8, 0x03#8, 0x01#8, 0x02#8, 0x03#8, 0x25#8, 0x4D#8])) [] = true := by decide +kernel
/-- T30. -/
theorem test_enc16_payload_256 : answers 0x3#4 { command := 0x01, bytes := List.replicate 256 0#8 } pureBlock .invalidArgument [] = true := by
  decide +kernel
/-- T37. -/
theorem test_dec8_trailing_bytes : answers 0x4#4 { bytes := [0xAA#8, 0xBB#8, 0x01#8, 0x00#8, 0xF4#8, 0x99#8, 0x98#8] } pureBlock
    (.done (.frame { command := 0x01#8, payload := [], checksum := .c8 0xF4#8 })) [] = true := by decide +kernel
/-- T35. -/
theorem test_dec8_missing_checksum : answers 0x4#4 { bytes := [0xAA#8, 0xBB#8, 0x02#8, 0x03#8, 0x01#8, 0x02#8, 0x03#8] } pureBlock
    (.decodeFailure .lengthExceedsSpan) [] = true := by decide +kernel
/-- T32. -/
theorem test_dec16_frame : answers 0x5#4 { bytes := [0xAA#8, 0xBB#8, 0x10#8, 0x02#8, 0xAA#8, 0xBB#8, 0xF7#8, 0x9B#8] } pureBlock
    (.done (.frame { command := 0x10#8, payload := [0xAA#8, 0xBB#8], checksum := .c16 0xF79B#16 })) [] = true := by decide +kernel
/-- T36. -/
theorem test_dec16_swapped_checksum : answers 0x5#4 { bytes := [0xAA#8, 0xBB#8, 0x01#8, 0x00#8, 0x00#8, 0x20#8] } pureBlock
    (.decodeFailure .checksumMismatch) [] = true := by decide +kernel
/-- T57. -/
theorem test_scan8_into_rejected_span :
    answers 0x6#4 { bytes := [0xAA#8, 0xBB#8, 0x10#8, 0x03#8, 0xAA#8, 0xBB#8, 0x01#8, 0x00#8, 0xF4#8] } pureBlock
      (.frameFound { command := 0x01#8, payload := [], checksum := .c8 0xF4#8 } 9) [] = true := by decide +kernel
/-- T53. -/
theorem test_scan8_blocked : answers 0x6#4 { bytes := [0xAA#8, 0xBB#8, 0x03#8, 0xAA#8, 0xBB#8, 0x01#8, 0x00#8, 0xF4#8] } pureBlock
    .needMoreData [] = true := by decide +kernel
/-- T75. -/
theorem test_scan16_into_rejected_span :
    answers 0x7#4 { bytes := [0xAA#8, 0xBB#8, 0x07#8, 0x04#8, 0xAA#8, 0xBB#8, 0x01#8, 0x00#8, 0x20#8, 0x00#8, 0x99#8, 0x99#8] } pureBlock
      (.frameFound { command := 0x01#8, payload := [], checksum := .c16 0x2000#16 } 10) [] = true := by decide +kernel
/-- T77. -/
theorem test_scan16_dangling : answers 0x7#4 { bytes := [0xAA#8, 0xBB#8, 0x02#8, 0x03#8, 0x01#8, 0x02#8, 0x03#8, 0x25#8, 0x4C#8, 0xAA#8] }
    pureBlock (.noFrameDiscard 9) [] = true := by decide +kernel
/-- T80. -/
theorem test_feed : answers 0x8#4 { bytes := [0x02#8, 0x03#8] } (owned [0xAA#8, 0xBB#8]) (.done .nothing)
    [0xAA#8, 0xBB#8, 0x02#8, 0x03#8] = true := by decide +kernel
/-- T91. -/
theorem test_feed_full : answers 0x8#4 { bytes := [0x06#8, 0x07#8, 0x08#8, 0x09#8] }
    (blockWith .owned (some 8) [0x01#8, 0x02#8, 0x03#8, 0x04#8, 0x05#8]) .bufferFull [0x01#8, 0x02#8, 0x03#8, 0x04#8, 0x05#8] = true := by
  decide +kernel
/-- T84. -/
theorem test_trim_all : answers 0x9#4 { count := 3 } (owned [0x12#8, 0x34#8, 0xAA#8]) (.done .nothing) [] = true := by decide +kernel
/-- T85. -/
theorem test_trim_range : answers 0x9#4 { count := 4 } (owned [0x12#8, 0x34#8, 0xAA#8]) .trimRange [0x12#8, 0x34#8, 0xAA#8] = true := by
  decide +kernel
/-- T87. -/
theorem test_next8 : answers 0xA#4 {} (owned [0x12#8, 0x34#8, 0xAA#8, 0xBB#8, 0x01#8, 0x00#8, 0xF4#8, 0x56#8, 0xAA#8])
    (.frameFound { command := 0x01#8, payload := [], checksum := .c8 0xF4#8 } 7) [0x56#8, 0xAA#8] = true := by decide +kernel
/-- T93. -/
theorem test_next8_pure : answers 0xA#4 {} pureBlock .illegalOp [] = true := by decide +kernel
/-- T88. -/
theorem test_next16 : answers 0xB#4 {} (owned [0xAA#8, 0xBB#8, 0x02#8, 0x03#8, 0x01#8, 0x02#8, 0x03#8, 0x25#8, 0x4C#8, 0xAA#8])
    (.noFrameDiscard 9) [0xAA#8] = true := by decide +kernel
/-- T90. -/
theorem test_clear : answers 0xC#4 {} (owned [0x12#8, 0x34#8, 0xAA#8]) (.done .nothing) [] = true := by decide +kernel
/-- T92. -/
theorem test_reservedD : answers 0xD#4 {} (owned [0x12#8]) .illegalOp [0x12#8] = true := by decide +kernel
/-- T92. -/
theorem test_reservedE : answers 0xE#4 {} (owned [0x12#8]) .illegalOp [0x12#8] = true := by decide +kernel
/-- T92. -/
theorem test_reservedF : answers 0xF#4 {} (owned [0x12#8]) .illegalOp [0x12#8] = true := by decide +kernel
/-- T32, by 30_encoding.md R88. -/
theorem test_frame8 : recognises .v8 [0xAA#8, 0xBB#8, 0x10#8, 0x02#8, 0xAA#8, 0xBB#8, 0xF0#8]
    (.done (.frame { command := 0x10#8, payload := [0xAA#8, 0xBB#8], checksum := .c8 0xF0#8 })) = true := by decide +kernel
/-- T36. -/
theorem test_frame8_mismatch : recognises .v8 [0xAA#8, 0xBB#8, 0x01#8, 0x00#8, 0xF5#8] (.decodeFailure .checksumMismatch) = true := by
  decide +kernel
/-- T32, by 30_encoding.md R88. -/
theorem test_frame16 : recognises .v16 [0xAA#8, 0xBB#8, 0x01#8, 0x00#8, 0x20#8, 0x00#8]
    (.done (.frame { command := 0x01#8, payload := [], checksum := .c16 0x2000#16 })) = true := by decide +kernel
/-- T38: a `V8` frame under `V16`. -/
theorem test_frame16_too_short : recognises .v16 [0xAA#8, 0xBB#8, 0x01#8, 0x00#8, 0xF4#8] (.decodeFailure .tooShort) = true := by
  decide +kernel

/-- The examples of 30_encoding.md R97. -/
theorem test_text_encoder : exchangeText (.enc16 0x02 [0x01#8, 0x02#8, 0x03#8])
      (.done (.wire [0xAA#8, 0xBB#8, 0x02#8, 0x03#8, 0x01#8, 0x02#8, 0x03#8, 0x25#8, 0x4D#8])) =
    "ENC16 cmd=0x02, [01 02 03] -> Done([AA BB 02 03 01 02 03 25 4D])" := by decide +kernel
theorem test_text_scan : exchangeText (.scan8 [0x12#8, 0x34#8, 0xAA#8, 0xBB#8, 0x01#8, 0x00#8, 0xF4#8, 0x56#8])
      (.frameFound { command := 0x01#8, payload := [], checksum := .c8 0xF4#8 } 7) =
    "SCAN8 [12 34 AA BB 01 00 F4 56] -> FrameFound(Frame(cmd=0x01, payload=[], ck=0xF4), consumed=7)" := by decide +kernel

/-! ## Witnesses: concrete states and operands that meet the hypotheses of a statement together -/

/-- T23 under `V8`. -/
def frameA : List Byte := [0xAA#8, 0xBB#8, 0x10#8, 0x02#8, 0xAA#8, 0xBB#8, 0xF0#8]

/-- T57: a false header at 0, complete and rejected, and a frame at 4. -/
def falseThenTrue : List Byte := [0xAA#8, 0xBB#8, 0x10#8, 0x03#8, 0xAA#8, 0xBB#8, 0x01#8, 0x00#8, 0xF4#8]

/-- T47: a header in the last two bytes. -/
def headerAtEnd : List Byte := [0x00#8, 0x00#8, 0x00#8, 0xAA#8, 0xBB#8]

/-- T62: a rejected frame at 1, then a dangling `AA`. -/
def rejectedThenDangling : List Byte := [0x00#8, 0xAA#8, 0xBB#8, 0x01#8, 0x00#8, 0xF5#8, 0xAA#8]

theorem witness_ConstantsAgreeWithEachOther : (15 : Nat) < 16 := by decide

theorem witness_EveryOutcomeIsOneTheTableGives : Response.trimRange.isError = true ∧
    ∃ t, exec (.trim 4) (owned [0x12#8]) = .next t ∧ t.response = some .trimRange := ⟨rfl, exists_next (by decide +kernel)⟩

/-- A command and a payload at the ends of both ranges; a command below, a command above and a payload above. -/
theorem witness_Enc8AnswersTheFrameOrRefuses :
    ((0 : Int) ≤ 255 ∧ (255 : Int) ≤ 255 ∧ (List.replicate 255 0#8).length ≤ 255) ∧
      ¬ ((0 : Int) ≤ -1 ∧ (-1 : Int) ≤ 255 ∧ ([] : List Byte).length ≤ 255) ∧
      ¬ ((0 : Int) ≤ 256 ∧ (256 : Int) ≤ 255 ∧ ([] : List Byte).length ≤ 255) ∧
      ¬ ((0 : Int) ≤ 0 ∧ (0 : Int) ≤ 255 ∧ (List.replicate 256 0#8).length ≤ 255) := by decide +kernel

theorem witness_Enc16AnswersTheFrameOrRefuses :
    ((0 : Int) ≤ 0 ∧ (0 : Int) ≤ 255 ∧ (List.replicate 255 0#8).length ≤ 255) ∧
      ¬ ((0 : Int) ≤ 255 ∧ (255 : Int) ≤ 255 ∧ (List.replicate 256 0#8).length ≤ 255) := by decide +kernel

theorem witness_WithByteWideCommandsOnlyTheLengthIsTested :
    (Instr.encodeOp .v8 255 (List.replicate 256 0#8)).posable (some 8) = true ∧ (Instr.encodeOp .v16 0 []).posable (some 8) = true := by
  decide +kernel

theorem witness_EncodersOutputValidFrames : ∃ t, exec (Instr.encodeOp .v8 0x10 [0xAA#8, 0xBB#8]) pureBlock = .next t ∧
    t.response = some (.done (.wire frameA)) := exists_next (by decide +kernel)

theorem witness_DecodersIgnoreBytesBeyondTheFrame_frame : ∃ t, exec (Instr.decodeOp .v8 frameA) pureBlock = .next t ∧
    t.response = some (.done (.frame { command := 0x10#8, payload := [0xAA#8, 0xBB#8], checksum := .c8 0xF0#8 })) :=
  exists_next (by decide +kernel)

theorem witness_DecodersIgnoreBytesBeyondTheFrame_short : ∃ t, exec (Instr.decodeOp .v8 (frameA.take 6)) pureBlock = .next t ∧
    t.response = some (.decodeFailure .lengthExceedsSpan) := exists_next (by decide +kernel)

theorem witness_DecodingAnEncodedFrameGivesItBack :
    (0 : Int) ≤ 255 ∧ (255 : Int) ≤ 255 ∧ (List.replicate 255 0xAA#8).length ≤ 255 := by decide +kernel

/-- The ends of the range of the clause on longer frames; the last clause has the upper bound alone. -/
theorem witness_FramesOfTheOtherVariant : (1 ≤ [0xAA#8].length ∧ [0xAA#8].length ≤ 255) ∧
    1 ≤ (List.replicate 255 0xAA#8).length ∧ (List.replicate 255 0xAA#8).length ≤ 255 ∧ ([] : List Byte).length ≤ 255 := by
  decide +kernel

theorem witness_WireFramesAreRecognisedByTheirChecksum : (List.replicate 255 0xBB#8).length ≤ 255 := by decide +kernel

theorem witness_EarliestValidMatchWins : matchAt falseThenTrue 4 = true ∧ validAt .v8 falseThenTrue 4 = true ∧
    matchAt falseThenTrue 0 = true ∧ ∀ j < 4, matchAt falseThenTrue j = true → rejectedAt .v8 falseThenTrue j = true := by decide +kernel

theorem witness_IncompleteCandidateBlocksTheScan_blocked : matchAt headerAtEnd 3 = true ∧ completeAt .v8 headerAtEnd 3 = false ∧
    ∀ j < 3, matchAt headerAtEnd j = true → rejectedAt .v8 headerAtEnd j = true := by decide +kernel

theorem witness_IncompleteCandidateBlocksTheScan_short : (headerAtEnd.take 4).length < minSize .v8 ∧ headerAtEnd.length < minSize .v16 := by
  decide +kernel

theorem witness_OnlyADanglingFirstHeaderByteIsKept : minSize .v8 ≤ rejectedThenDangling.length ∧ matchAt rejectedThenDangling 1 = true ∧
    byteAt rejectedThenDangling (rejectedThenDangling.length - 1) = 0xAA#8 ∧
    ∀ j, matchAt rejectedThenDangling j = true → rejectedAt .v8 rejectedThenDangling j = true := by
  refine ⟨by decide +kernel, by decide +kernel, by decide +kernel, fun j hm => ?_⟩
  have hj : j < 7 := by
    have : j + 2 ≤ rejectedThenDangling.length := by simp only [matchAt, Bool.and_eq_true, decide_eq_true_eq] at hm; exact hm.1
    have : rejectedThenDangling.length = 7 := rfl
    omega
  revert hm
  exact (by decide +kernel : ∀ j < 7, matchAt rejectedThenDangling j = true → rejectedAt .v8 rejectedThenDangling j = true) j hj

/-- T49: a buffer of exactly `MIN(V8)` bytes, rejected at 0. -/
def corrupted : List Byte := [0xAA#8, 0xBB#8, 0x01#8, 0x00#8, 0xF5#8]

/-- Exactly `MIN(v)` bytes: a rejected candidate and no further match, and no match at 0 and one further on. -/
theorem witness_RejectedCandidateAdvancesTheScanByOneByte_min :
    (corrupted.length = minSize .v8 ∧ matchAt corrupted 0 = true ∧ rejectedAt .v8 corrupted 0 = true ∧
      ∀ j, 0 < j → matchAt corrupted j = false) ∧
      headerAtEnd.length = minSize .v8 ∧ matchAt headerAtEnd 0 = false ∧ ∃ j, 0 < j ∧ matchAt headerAtEnd j = true := by
  refine ⟨⟨by decide +kernel, by decide +kernel, by decide +kernel, fun j hj => ?_⟩, by decide +kernel, by decide +kernel, 3, by decide +kernel⟩
  by_cases hlt : j < 5
  · exact (by decide +kernel : ∀ j < 5, 0 < j → matchAt corrupted j = false) j hlt hj
  · have hlen : corrupted.length = 5 := rfl
    simp only [matchAt, Bool.and_eq_false_iff, decide_eq_false_iff_not]
    exact .inl (by omega)

theorem witness_RejectedCandidateAdvancesTheScanByOneByte : falseThenTrue = 0xAA#8 :: falseThenTrue.drop 1 ∧
    minSize .v8 ≤ (falseThenTrue.drop 1).length ∧ matchAt falseThenTrue 0 = true ∧ rejectedAt .v8 falseThenTrue 0 = true := by
  decide +kernel

theorem witness_CandidatesAreValidatedByTheDecoder : (matchAt falseThenTrue 0 = true ∧ completeAt .v8 falseThenTrue 0 = true ∧
    validAt .v8 falseThenTrue 0 = false) ∧ matchAt falseThenTrue 4 = true ∧ completeAt .v8 falseThenTrue 4 = true ∧
    validAt .v8 falseThenTrue 4 = true := by decide +kernel

/-- One phase of each kind that the clauses name: `HUNT` past no match, `CMP` of a mismatch, `MINCHK` to `HUNT`, and `IDLE`. -/
theorem witness_ScanIndexMovesByOneAtMost :
    (∃ w', phaseStep .v8 falseThenTrue { Work.reset with ph := .hunt, l := 9, i := 1 } = .ok w' ∧ w'.i = 2) ∧
      (∃ w', phaseStep .v8 falseThenTrue { Work.reset with ph := .cmp, l := 9, acc8 := 0x28#8, n := 3#8 } = .ok w' ∧ w'.i = 1) ∧
      (∃ w', phaseStep .v8 falseThenTrue { Work.reset with ph := .minchk, l := 9, i := 5 } = .ok w' ∧ w'.ph = .hunt) ∧
      ∃ w', phaseStep .v8 falseThenTrue Work.reset = .ok w' ∧ w'.l = 9 := by
  refine ⟨⟨_, rfl, rfl⟩, ⟨_, rfl, rfl⟩, ⟨_, rfl, rfl⟩, _, rfl, rfl⟩

theorem witness_FrameIsFoundOnlyWhenItsLastByteArrives : ([0xAA#8, 0xBB#8] : List Byte).length ≤ 255 ∧
    6 < (frameBytes .v8 0x10#8 [0xAA#8, 0xBB#8]).length := by decide +kernel

theorem witness_FrameBetweenNoiseIsFound : ([] : List Byte).length ≤ 255 ∧
    matchAt ([0xAA#8, 0xBB#8, 0x00#8, 0x01#8] ++ frameBytes .v8 0x01#8 [] ++ [0x56#8]) 0 = true ∧
    ∀ j < ([0xAA#8, 0xBB#8, 0x00#8, 0x01#8] : List Byte).length,
      matchAt ([0xAA#8, 0xBB#8, 0x00#8, 0x01#8] ++ frameBytes .v8 0x01#8 [] ++ [0x56#8]) j = true →
        rejectedAt .v8 ([0xAA#8, 0xBB#8, 0x00#8, 0x01#8] ++ frameBytes .v8 0x01#8 [] ++ [0x56#8]) j = true := by decide +kernel

/-- A frame with one bit of its checksum flipped, and a good frame behind it. -/
theorem witness_CorruptedFrameIsNeverReported_v8 : (0xF5#8 : Byte) ≠ crc8 (covered 0x01#8 []) ∧
    ∃ t, exec (.scan8 (layout 0x01#8 [] (.c8 0xF5#8) ++ [0xAA#8, 0xBB#8, 0x01#8, 0x00#8, 0xF4#8])) pureBlock = .next t ∧
      t.response = some (.frameFound { command := 0x01#8, payload := [], checksum := .c8 0xF4#8 } 10) :=
  ⟨by decide +kernel, exists_next (by decide +kernel)⟩

theorem witness_CorruptedFrameIsNeverReported_v16 : (0x2001#16 : Half) ≠ crc16 (covered 0x01#8 []) ∧
    ∃ t, exec (.scan16 (layout 0x01#8 [] (.c16 0x2001#16) ++ [0xAA#8, 0xBB#8, 0x01#8, 0x00#8, 0x20#8, 0x00#8])) pureBlock = .next t ∧
      t.response = some (.frameFound { command := 0x01#8, payload := [], checksum := .c16 0x2000#16 } 12) :=
  ⟨by decide +kernel, exists_next (by decide +kernel)⟩

/-- A chunk that fills the buffer to `BUFCAP` exactly, one that is a byte too long, and an unbounded buffer. -/
theorem witness_FeedAppendsTheChunkOrRefusesItWhole :
    (blockWith .owned (some 8) frameA).cfg.profile = .owned ∧
      (∀ cap, (blockWith .owned (some 8) frameA).cfg.bufcap = some cap → frameA.length + [0x01#8].length ≤ cap) ∧
      (∀ cap, (owned frameA).cfg.bufcap = some cap → frameA.length + frameA.length ≤ cap) ∧
      (blockWith .owned (some 8) frameA).cfg.bufcap = some 8 ∧ 8 < frameA.length + [0x01#8, 0x02#8].length := by
  refine ⟨rfl, fun cap h => ?_, fun cap h => ?_, rfl, by decide⟩
  · cases h; decide
  · cases h

theorem witness_TrimAndClearRemoveLeadingBytes : (owned frameA).cfg.profile = .owned ∧ 7 ≤ (owned frameA).rxbuf.length ∧
    (owned frameA).rxbuf.length < 8 := by decide

theorem witness_NextScansAndTrimsAsOrdered : (owned frameA).cfg.profile = .owned ∧
    scan .v8 (owned frameA).rxbuf = .frameFound { command := 0x10#8, payload := [0xAA#8, 0xBB#8], checksum := .c8 0xF0#8 } 7 := by
  decide +kernel

theorem witness_OutcomesOtherThanNeedMoreDataMakeProgress : (owned frameA).cfg.profile = .owned ∧
    ∃ t, exec (Instr.nextOp .v8) (owned frameA) = .next t ∧ t.rxbuf = [] := ⟨rfl, exists_next (by decide +kernel)⟩

theorem witness_AfterADiscardMoreDataIsNeeded : (owned rejectedThenDangling).cfg.profile = .owned ∧
    ∃ t, exec (Instr.nextOp .v8) (owned rejectedThenDangling) = .next t ∧ t.response = some (.noFrameDiscard 6) :=
  ⟨rfl, exists_next (by decide +kernel)⟩

theorem witness_IllegalRequestsChangeNothing : pureBlock.cfg.profile = .pure ∧ .clear ∈ [Instr.feed [], .trim 0, .next8, .next16, .clear] := by
  decide

theorem witness_ChunksAccumulateInOrder :
    ((owned []).setRequests [.op 0x8#4 { bytes := [0x01#8] }, .op 0x8#4 { bytes := [0x02#8, 0x03#8] }]).requests =
        [[0x01#8], [0x02#8, 0x03#8]].map (fun c => encode (Instr.feedOp c)) ∧
      (owned []).cfg.profile = .owned ∧ (owned []).cfg.bufcap = none := by decide

theorem witness_OwnedBlockAndPureCallerAgree :
    ((owned []).setRequests [.op 0x8#4 { bytes := frameA }, .op 0xA#4 {}]).requests =
        [Action.append frameA, Action.parse].map (actionRequest .v8) ∧
      (owned []).cfg.profile = .owned ∧ (owned []).cfg.bufcap = none ∧ pureBlock.cfg.profile = .pure := by decide

theorem witness_FramesAreDeliveredInWireOrder :
    (owned (frameA ++ [0xAA#8])).rxbuf = [((0x10#8 : Byte), [0xAA#8, 0xBB#8])].flatMap (fun x => frameBytes .v8 x.1 x.2) ++ [0xAA#8] ∧
      ((owned []).setRequests [.op 0xA#4 {}, .op 0xA#4 {}]).requests =
        List.replicate ([((0x10#8 : Byte), ([0xAA#8, 0xBB#8] : List Byte))].length + 1) (encode (Instr.nextOp .v8)) ∧
      ([0xAA#8] : List Byte).length < minSize .v8 ∧ ([0xAA#8, 0xBB#8] : List Byte).length ≤ 255 := by decide +kernel

theorem witness_DrainingReachesNeedMoreData : (owned frameA).cfg.profile = .owned ∧
    ((owned frameA).setRequests [.op 0xA#4 {}, .op 0xA#4 {}]).requests =
      List.replicate ((owned frameA).rxbuf.length / 4 + 1) (encode (Instr.nextOp .v8)) := by decide

theorem witness_DecodingAnEncodedInstructionGivesItBack : (Instr.frame16 0xFF#8 (List.replicate 255 0xFF#8) 0x0030#16).wellFormed = true ∧
    (Instr.enc8 (-1) []).wellFormed = true := by decide +kernel

theorem witness_EncodingADecodedInstructionGivesItsBytes :
    (decodeWire .v8 (frameA ++ [0x99#8])).toOption = some (.frame8 0x10#8 [0xAA#8, 0xBB#8] 0xF0#8, [0x99#8]) := by decide +kernel

theorem witness_StepServesTheOldestRequest :
    ((owned []).setRequests [.op 0x9#4 { count := 1 }, .op 0xC#4 {}]).requests = .op 0x9#4 { count := 1 } :: [.op 0xC#4 {}] ∧
      decode (.op 0x9#4 { count := 1 }) = .ok (.trim 1) := ⟨rfl, rfl⟩

theorem witness_SpansFromTheLinkAreAnsweredAsTheDecoderAnswers :
    (pureBlock.setRequests [.wire .v8 (frameA.take 6)]).requests = .wire .v8 (frameA.take 6) :: [] := rfl

/-- A state that meets the invariant with a full buffer, and a step from it. -/
theorem witness_EveryStepKeepsTheInvariant :
    ((blockWith .owned (some 7) frameA).setRequests [.op 0xA#4 {}]).Inv ∧
      ∃ t, step ((blockWith .owned (some 7) frameA).setRequests [.op 0xA#4 {}]) = .next t ∧
        t.response = some (.frameFound { command := 0x10#8, payload := [0xAA#8, 0xBB#8], checksum := .c8 0xF0#8 } 7) :=
  ⟨⟨rfl, by decide, by decide, by decide, fun r h => by cases h⟩, exists_next (by decide +kernel)⟩

theorem witness_ErrorsLeaveNothingBehind_error : Response.trimRange.isError = true ∧
    ∃ t, exec (.trim 8) (owned frameA) = .next t ∧ t.response = some .trimRange := ⟨rfl, exists_next (by decide +kernel)⟩

theorem witness_ErrorsLeaveNothingBehind_failure : ∃ t, exec (.dec8 [0xAA#8]) (owned frameA) = .next t ∧
    t.response = some (.decodeFailure .tooShort) := exists_next (by decide +kernel)

/-- `FEED` changes `RXBUF` and keeps it within `BUFCAP`; `CRC8` is among the operations that neither read nor write it. -/
theorem witness_RxbufChangesOnlyAtItsEnds :
    (∃ t, exec (.feed [0x01#8]) (blockWith .owned (some 8) frameA) = .next t ∧ t.rxbuf = frameA ++ [0x01#8]) ∧
      rxbufFits (some 8) frameA = true ∧ Space.rxbuf ∉ writesSpace (.crc8 [0x01#8]) ∧
      ∃ t, exec (.crc8 [0x01#8]) (owned frameA) = .next t ∧ t.rxbuf = frameA :=
  ⟨exists_next (by decide +kernel), by decide, by decide, exists_next (by decide +kernel)⟩

theorem witness_PureBlockHoldsNothing : pureBlock.cfg.profile = .pure ∧
    ∃ t, exec (.scan8 frameA) pureBlock = .next t ∧ t.rxbuf = [] := ⟨rfl, exists_next (by decide +kernel)⟩

/-- Two states that differ in the working registers, and a step of the first. -/
theorem witness_EveryStepKeepsStatesAlikeToTheCaller :
    sameToCaller ((owned frameA).setRequests [.op 0xA#4 {}])
        (((owned frameA).setRequests [.op 0xA#4 {}]).setWork { Work.reset with acc8 := 0xFF#8, i := 7, ph := .cmp }) ∧
      ∃ t, step ((owned frameA).setRequests [.op 0xA#4 {}]) = .next t ∧ t.rxbuf = [] := ⟨rfl, exists_next (by decide +kernel)⟩

end Sys2Proof.Tests
end

section
/-! The byte steps of the Checksum Engine in plain arithmetic (40_checksum.md R112), and the reference check value of R121. -/

namespace Sys2Proof.Machine

/-- The model's repetition is Mathlib's iterate, whose library then applies. -/
theorem times_eq_iterate {α : Type} (f : α → α) (k : Nat) (a : α) : times f k a = f^[k] a := by
  induction k generalizing a with
  | zero => rfl
  | succ k ih => exact ih (f a)

/-- One iteration of R112 on numbers. -/
def shift8Nat (x : Nat) : Nat := if 128 ≤ x then (2 * x % 256) ^^^ 0x31 else 2 * x % 256

/-- The top bit of a byte says whether its number is 128 or more, and a shift left doubles the number mod 256. -/
theorem toNat_shift8 (a : Byte) : (shift8 a).toNat = shift8Nat a.toNat := by
  have hdouble : (a <<< 1).toNat = 2 * a.toNat % 256 := by
    simp [Nat.shiftLeft_eq, Nat.mul_comm]
  have htop : a.msb = true ↔ 128 ≤ a.toNat := by simp [BitVec.msb_eq_decide]
  simp only [shift8, shift8Nat, htop]
  split
  · rw [BitVec.toNat_xor, hdouble]
    rfl
  · exact hdouble

end Sys2Proof.Machine

open Sys2Proof.Machine

/-- Settles O4: reading a byte as a number commutes with one iteration, hence with eight. -/
theorem byteStep8IsEightShiftsOfTheXor : Obligations.ByteStep8IsEightShiftsOfTheXor := by
  intro a b
  have hcommute : Function.Semiconj BitVec.toNat shift8 shift8Nat := toNat_shift8
  calc (step8 a b).toNat
      = (shift8^[8] (a ^^^ b)).toNat := by rw [step8, times_eq_iterate]
    _ = shift8Nat^[8] (a ^^^ b).toNat := hcommute.iterate_right 8 (a ^^^ b)
    _ = shift8Nat^[8] (a.toNat ^^^ b.toNat) := by rw [BitVec.toNat_xor]

/-- Settles O9: the accumulators are computed on the nine bytes, and the check value is the last of them. -/
theorem crc16ReferenceCheckValue : Obligations.Crc16ReferenceCheckValue := by
  unfold Obligations.Crc16ReferenceCheckValue
  refine (and_iff_left_of_imp fun haccs => ?_).mpr (by decide)
  have hlast := congrArg List.getLast? haccs
  rw [List.getLast?_scanl] at hlast
  exact Option.some.inj hlast

end

section
/-! The codec round trip (41_frame_codec.md R155): what the encoders and decoders answer, through `exec`, and the decoder's outcome on a
frame whatever follows it. -/

namespace Sys2Proof.Machine

/-- With encodable arguments an encoder answers the frame's bytes (41_frame_codec.md R142, R143). -/
theorem exec_encodeOp_encodable (v : Variant) {c : Int} {p : List Byte} (h : encodable c p = true) (s : State) :
    ∃ w : Work, exec (Instr.encodeOp v c p) s =
      .next { s with work := w, response := some (.done (.wire (frameBytes v (commandByte c) p))) } := by
  cases v <;> exact ⟨_, runEncoder_encodable h s⟩

/-- Every span is answered by the decoder's outcome on it (41_frame_codec.md R149 to R152). -/
theorem exec_decodeOp (v : Variant) (bytes : List Byte) (s : State) :
    ∃ w : Work, exec (Instr.decodeOp v bytes) s = .next { s with work := w, response := some (decodeOutcome v bytes) } := by
  obtain ⟨w, hrun, -⟩ := runDecoder_spec v bytes s.work
  have hconclude : conclude (runDecoder v bytes s.work) s =
      .next { s with work := w, response := some (decodeOutcome v bytes) } := by rw [hrun, conclude_ok]
  cases v <;> exact ⟨w, hconclude⟩

/-- The size law for a variant's own frame (30_encoding.md R84). -/
theorem frameBytes_length (v : Variant) (c : Byte) (p : List Byte) : (frameBytes v c p).length = minSize v + p.length := by
  rw [frameBytes, layout_length, checksumVariant_crc]

/-- A frame passes R149's four tests, whatever follows it, and R150 reads back the command, the payload and the checksum. -/
theorem decodeOutcome_frameBytes (v : Variant) (c : Byte) {p : List Byte} (hp : p.length ≤ 255) (rest : List Byte) :
    decodeOutcome v (frameBytes v c p ++ rest) = .done (.frame (frameOf v c p)) := by
  have hmin : ¬ (frameBytes v c p ++ rest).length < minSize v := by
    rw [List.length_append, frameBytes_length]; omega
  have hheader : ¬ (byteAt (frameBytes v c p ++ rest) 0 ≠ head1 ∨ byteAt (frameBytes v c p ++ rest) 1 ≠ head2) := by
    simp [frameBytes]
  have hlen : (byteAt (frameBytes v c p ++ rest) 3).toNat = p.length := by
    rw [frameBytes, byteAt_layout_3, lenByte_toNat hp]
  have hsize : ¬ (frameBytes v c p ++ rest).length < minSize v + p.length := by
    rw [List.length_append, frameBytes_length]; omega
  have hcovered : ((frameBytes v c p ++ rest).drop 2).take (2 + p.length) = covered c p := covered_layout c p _ rest
  have hchecksum : readChecksum v (frameBytes v c p ++ rest) (4 + p.length) = some (crc v (covered c p)) := by
    simpa only [frameBytes, checksumVariant_crc] using readChecksum_layout c p (crc v (covered c p)) rest
  simp only [decodeOutcome, hlen, hcovered]
  rw [if_neg hmin, if_neg hheader, if_neg hsize, if_pos hchecksum, frameBytes, byteAt_layout_2, payload_layout, frameOf]

end Sys2Proof.Machine

open Sys2Proof Sys2Proof.Machine

/-- Settles O18: the encoder answers `frameBytes`, and the decoder's outcome on `frameBytes` is the Frame they carry. -/
theorem decodingAnEncodedFrameGivesItBack : Obligations.DecodingAnEncodedFrameGivesItBack := by
  intro v c p s s' hlow hhigh hp
  obtain ⟨w, hencode⟩ := exec_encodeOp_encodable v (encodable_iff.mpr ⟨hlow, hhigh, hp⟩) s
  obtain ⟨w', hdecode⟩ := exec_decodeOp v (frameBytes v (commandByte c) p) s'
  have hframe := decodeOutcome_frameBytes v (commandByte c) hp []
  rw [List.append_nil] at hframe
  rw [hframe] at hdecode
  exact ⟨_, _, _, hencode, rfl, hdecode, rfl⟩

end

section
/-! The walk of the scan (42_defragmenter.md R171) from one end of the buffer to the other: what `SCANv` answers through `exec`, where the
walk stops when every earlier match is rejected, and what one more byte in front of the walked bytes changes. -/

namespace Sys2Proof.Machine

/-- Every buffer is answered by the scan function's outcome on it (42_defragmenter.md R172, R173). -/
theorem exec_scanOp (v : Variant) (buf : List Byte) (s : State) :
    ∃ w : Work, exec (Instr.scanOp v buf) s = .next { s with work := w, response := some (scan v buf) } := by
  obtain ⟨w, hrun, -⟩ := runScan_spec v buf s.work
  have hconclude : conclude (runScan v buf s.work) s = .next { s with work := w, response := some (scan v buf) } := by
    rw [hrun, conclude_ok]
  cases v <;> exact ⟨w, hconclude⟩

/-- A header match has two bytes. -/
theorem add_two_le_of_matchAt {buf : List Byte} {i : Nat} (hm : matchAt buf i = true) : i + 2 ≤ buf.length := by
  simp only [matchAt, Bool.and_eq_true, decide_eq_true_eq] at hm
  exact hm.1

/-- A valid candidate is complete (42_defragmenter.md R190). -/
theorem completeAt_of_validAt {v : Variant} {buf : List Byte} {i : Nat} (h : validAt v buf i = true) : completeAt v buf i = true := by
  simp only [validAt, Bool.and_eq_true] at h
  exact h.1

/-- The minimum-size test of R171 line (a), passed. -/
theorem scan_of_minSize_le {v : Variant} {buf : List Byte} (h : minSize v ≤ buf.length) : scan v buf = scanFrom v 0 buf :=
  if_neg (Nat.not_lt.mpr h)

/-- The walk comes to every offset of the buffer before which each header match is rejected (42_defragmenter.md R177). -/
theorem scanFrom_zero_eq {v : Variant} {buf : List Byte} {i : Nat} (hi : i < buf.length)
    (hpass : ∀ j < i, matchAt buf j = true → rejectedAt v buf j = true) : scanFrom v 0 buf = scanFrom v i (buf.drop i) := by
  induction i with
  | zero => rfl
  | succ i ih =>
    calc scanFrom v 0 buf
        = scanFrom v i (buf.drop i) := ih (by omega) fun j hj => hpass j (by omega)
      _ = scanFrom v (i + 1) (buf.drop (i + 1)) := scanFrom_pass hi (hpass i (by omega))

section Ends

variable {v : Variant} {buf : List Byte}

/-- The scan ends at the first header match that is not rejected, with what R171 does there. -/
theorem scan_eq_of_judge {i : Nat} {r : Response} (hmin : minSize v ≤ buf.length) (hm : matchAt buf i = true)
    (hpass : ∀ j < i, matchAt buf j = true → rejectedAt v buf j = true) (hj : judge v i (buf.drop i) = some r) : scan v buf = r := by
  have hi := add_two_le_of_matchAt hm
  rw [scan_of_minSize_le hmin, scanFrom_zero_eq (by omega) hpass, scanFrom_end hm hj]

/-- A valid first match is reported (42_defragmenter.md R178). -/
theorem scan_of_validAt {i : Nat} (hm : matchAt buf i = true) (hv : validAt v buf i = true)
    (hpass : ∀ j < i, matchAt buf j = true → rejectedAt v buf j = true) :
    scan v buf = .frameFound (candidateAt v buf i) (i + minSize v + (byteAt buf (i + 3)).toNat) := by
  have hc := completeAt_of_validAt hv
  have hmin : minSize v ≤ buf.length := by
    simp only [completeAt, Bool.and_eq_true, decide_eq_true_eq] at hc
    omega
  exact scan_eq_of_judge hmin hm hpass (by rw [judge_drop, if_pos hc, if_pos hv])

/-- An incomplete first match blocks the scan (42_defragmenter.md R194). -/
theorem scan_of_not_completeAt {i : Nat} (hmin : minSize v ≤ buf.length) (hm : matchAt buf i = true) (hc : completeAt v buf i = false)
    (hpass : ∀ j < i, matchAt buf j = true → rejectedAt v buf j = true) : scan v buf = .needMoreData :=
  scan_eq_of_judge hmin hm hpass (by simp [judge_drop, hc])

/-- Where every match is rejected, the walk comes to the last byte, which is kept if it can begin a header (R171 lines (g), (h)). -/
theorem scan_of_all_rejected (hmin : minSize v ≤ buf.length) (hpass : ∀ j, matchAt buf j = true → rejectedAt v buf j = true) :
    scan v buf = .noFrameDiscard (if byteAt buf (buf.length - 1) = head1 then buf.length - 1 else buf.length) := by
  have hfive := five_le_minSize v
  obtain ⟨a, hlast⟩ : ∃ a, buf.drop (buf.length - 1) = [a] :=
    List.length_eq_one_iff.mp (by rw [List.length_drop]; omega)
  have ha : byteAt buf (buf.length - 1) = a := by
    have := byteAt_drop buf (buf.length - 1) 0
    rw [hlast] at this
    exact this.symm
  rw [scan_of_minSize_le hmin, scanFrom_zero_eq (show buf.length - 1 < buf.length by omega) fun j _ => hpass j, hlast, ha, scanFrom,
    show buf.length - 1 + 1 = buf.length by omega]
  split <;> rfl

end Ends

/-- The offset a candidate is judged at enters its outcome as the count only. -/
theorem judge_succ (v : Variant) (i : Nat) (suf : List Byte) : judge v (i + 1) suf = (judge v i suf).map shiftedByOne := by
  unfold judge
  dsimp only
  split_ifs
  · rfl
  · rfl
  · simp only [Option.map_some, shiftedByOne, Nat.add_right_comm _ 1]
  · rfl

/-- The offset a walk begins at enters its outcome as the count only. -/
theorem scanFrom_succ (v : Variant) (i : Nat) (suf : List Byte) : scanFrom v (i + 1) suf = shiftedByOne (scanFrom v i suf) := by
  induction suf generalizing i with
  | nil => rfl
  | cons a tl ih =>
    cases tl with
    | nil => simp only [scanFrom]; split <;> rfl
    | cons b rest =>
      simp only [scanFrom, judge_succ, ih]
      split
      · cases judge v i (a :: b :: rest) <;> rfl
      · rfl

/-- What R171 does at a header match is a scan's outcome. -/
theorem isScanOutcome_of_judge {v : Variant} {i : Nat} {suf : List Byte} {r : Response} (h : judge v i suf = some r) :
    r.isScanOutcome = true := by
  unfold judge at h
  dsimp only at h
  split_ifs at h <;> cases h <;> rfl

/-- No walk reports a mismatch (42_defragmenter.md R177). -/
theorem scanFrom_isScanOutcome (v : Variant) (i : Nat) (suf : List Byte) : (scanFrom v i suf).isScanOutcome = true := by
  induction suf generalizing i with
  | nil => rfl
  | cons a tl ih =>
    cases tl with
    | nil => simp only [scanFrom]; split <;> rfl
    | cons b rest =>
      simp only [scanFrom]
      split
      · cases hj : judge v i (a :: b :: rest) with
        | none => exact ih (i + 1)
        | some r => exact isScanOutcome_of_judge hj
      · exact ih (i + 1)

/-- A first byte that is passed over leaves the outcome of the rest, its count one higher (42_defragmenter.md R177). -/
theorem scan_cons_of_pass {v : Variant} {a : Byte} {rest : List Byte} (hmin : minSize v ≤ rest.length)
    (hpass : matchAt (a :: rest) 0 = true → rejectedAt v (a :: rest) 0 = true) : scan v (a :: rest) = shiftedByOne (scan v rest) := by
  have hfive := five_le_minSize v
  have hlen : (a :: rest).length = rest.length + 1 := rfl
  calc scan v (a :: rest)
      = scanFrom v 0 (a :: rest) := scan_of_minSize_le (by omega)
    _ = scanFrom v 1 rest := scanFrom_pass (i := 0) (by omega) hpass
    _ = shiftedByOne (scanFrom v 0 rest) := scanFrom_succ v 0 rest
    _ = shiftedByOne (scan v rest) := by rw [scan_of_minSize_le hmin]

/-- In a buffer of exactly `MIN(v)` bytes only the first offset leaves room for a frame. -/
theorem completeAt_eq_false_of_pos {v : Variant} {buf : List Byte} {j : Nat} (hlen : buf.length = minSize v) (hj : 0 < j) :
    completeAt v buf j = false := by
  have hfive := five_le_minSize v
  have hshort : ¬ minSize v ≤ buf.length - j := by omega
  simp [completeAt, hshort]

/-- A buffer of exactly `MIN(v)` bytes with a match past its first byte needs more data: the earliest such match is incomplete. -/
theorem scan_minSize_of_later_match {v : Variant} {buf : List Byte} (hlen : buf.length = minSize v)
    (hpass : matchAt buf 0 = true → rejectedAt v buf 0 = true) (hex : ∃ j, 0 < j ∧ matchAt buf j = true) :
    scan v buf = .needMoreData := by
  obtain ⟨hpos, hm⟩ := Nat.find_spec hex
  refine scan_of_not_completeAt hlen.ge hm (completeAt_eq_false_of_pos hlen hpos) fun k hk hmk => ?_
  rcases Nat.eq_zero_or_pos k with rfl | hkpos
  · exact hpass hmk
  · exact absurd ⟨hkpos, hmk⟩ (Nat.find_min hex hk)

end Sys2Proof.Machine

open Sys2Proof Sys2Proof.Machine

/-- Settles O23: the walk comes to the valid match and ends there. -/
theorem earliestValidMatchWins : Obligations.EarliestValidMatchWins := by
  intro v buf i s hm hv hpass
  rw [← Nat.add_assoc, ← scan_of_validAt hm hv hpass]
  exact exec_scanOp v buf s

/-- Settles O26: a longer buffer by the walk of its rest, begun one offset later; one of `MIN(v)` bytes by its first match past
offset 0, which is incomplete, or by the walk to its last byte. -/
theorem rejectedCandidateAdvancesTheScanByOneByte : Obligations.RejectedCandidateAdvancesTheScanByOneByte := by
  refine ⟨fun v a rest s hmin hpass => ?_, fun v buf s hlen hpass => ?_⟩
  · obtain ⟨w, hrest⟩ := exec_scanOp v rest s
    obtain ⟨w', hwhole⟩ := exec_scanOp v (a :: rest) s
    rw [scan_cons_of_pass hmin hpass] at hwhole
    refine ⟨w, w', scan v rest, ?_, hrest, hwhole⟩
    rw [scan_of_minSize_le hmin]
    exact scanFrom_isScanOutcome v 0 rest
  · obtain ⟨w, hexec⟩ := exec_scanOp v buf s
    refine ⟨w, scan v buf, hexec, scan_minSize_of_later_match hlen hpass, fun hnone => ?_⟩
    have hall : ∀ j, matchAt buf j = true → rejectedAt v buf j = true := by
      intro j hm
      rcases Nat.eq_zero_or_pos j with rfl | hpos
      · exact hpass hm
      · exact absurd hm (by simp [hnone j hpos])
    refine ⟨_, scan_of_all_rejected hlen.ge hall, ?_⟩
    split <;> omega

end

section
/-! What an error leaves behind (60_exceptions.md R236, R237): every operation either refuses, and then only its response is new, or
completes; and which of the two, the response and the buffer it leaves depend on neither the working registers nor the last response. -/

namespace Sys2Proof.Machine

/-- Everything an operation can do in a state that is `s` but for its working registers and its last response: it ends in the same error
every time and writes nothing else (60_exceptions.md R236), or it gives the same response and leaves the same buffer every time, which
after a decoder's failure is the old one. -/
inductive Served (s : State) (op : State → Answer) : Prop where
  | refused {e : Response} (isError : e.isError = true)
      (answer : ∀ (w : Work) (o : Option Response),
        op { s with work := w, response := o } = .next { s with work := w, response := some e })
  | completed {r : Response} {b : List Byte} (notError : r.isError = false)
      (keptOnFailure : ∀ reason, r = .decodeFailure reason → b = s.rxbuf)
      (answer : ∀ (w : Work) (o : Option Response), ∃ w' : Work,
        op { s with work := w, response := o } = .next { s with work := w', rxbuf := b, response := some r })

section Consequences

variable {s t : State} {op : State → Answer} {r : Response}

/-- An error changes nothing but the response (60_exceptions.md R236). -/
theorem Served.eq_of_isError (h : Served s op) (hop : op s = .next t) (hr : t.response = some r) (he : r.isError = true) :
    t = { s with response := some r } := by
  cases h with
  | refused _ answer =>
    obtain rfl := Host.Outcome.next.inj (hop.symm.trans (answer s.work s.response))
    rw [← hr]
  | completed notError _ answer =>
    obtain ⟨w, hw⟩ := answer s.work s.response
    obtain rfl := Host.Outcome.next.inj (hop.symm.trans hw)
    obtain rfl := Option.some.inj hr
    rw [notError] at he
    cases he

/-- A decoder's failure changes nothing but the response and the working registers (60_exceptions.md R236). -/
theorem Served.eq_of_decodeFailure {reason : Reason} (h : Served s op) (hop : op s = .next t)
    (hr : t.response = some (.decodeFailure reason)) : t = { s with work := t.work, response := some (.decodeFailure reason) } := by
  cases h with
  | refused _ answer =>
    obtain rfl := Host.Outcome.next.inj (hop.symm.trans (answer s.work s.response))
    rw [← hr]
  | completed _ keptOnFailure answer =>
    obtain ⟨w, hw⟩ := answer s.work s.response
    obtain rfl := Host.Outcome.next.inj (hop.symm.trans hw)
    rw [← hr, ← keptOnFailure reason (Option.some.inj hr)]

/-- No answer depends on the working registers or on the last response (10_state.md R28, R39). -/
theorem Served.sameAnswer (h : Served s op) (w : Work) (o : Option Response) :
    sameAnswer (op s) (op { s with work := w, response := o }) := by
  cases h with
  | refused _ answer =>
    rw [answer w o, show op s = _ from answer s.work s.response]
    rfl
  | completed _ _ answer =>
    obtain ⟨w₁, hs⟩ := answer s.work s.response
    obtain ⟨w₂, ht⟩ := answer w o
    rw [ht, show op s = _ from hs]
    rfl

end Consequences

/-- A scan's outcome is no error (60_exceptions.md R234). -/
theorem isError_of_isScanOutcome {r : Response} (h : r.isScanOutcome = true) : r.isError = false := by
  cases r <;> cases h <;> rfl

/-- Every scan answers a scan's outcome (42_defragmenter.md R170). -/
theorem scan_isScanOutcome (v : Variant) (buf : List Byte) : (scan v buf).isScanOutcome = true := by
  unfold scan
  split
  · rfl
  · exact scanFrom_isScanOutcome v 0 buf

/-- A decoder's outcome is no error: its failure is "a return value, not an exception" (60_exceptions.md R232). -/
theorem decodeOutcome_isError (v : Variant) (bytes : List Byte) : (decodeOutcome v bytes).isError = false := by
  rcases decodeOutcome_cases v bytes with ⟨f, hf⟩ | ⟨reason, hf⟩ <;> rw [hf] <;> rfl

section Operations

variable (s : State)

/-- An error raised whatever the state. -/
theorem served_raiseError {e : Response} (he : e.isError = true) : Served s (raiseError e) := .refused he fun _ _ => rfl

/-- Whatever ends in `Done` ends in neither an error nor a decoder's failure. -/
theorem served_done {op : State → Answer} (d : Result) (b : List Byte)
    (answer : ∀ (w : Work) (o : Option Response), ∃ w' : Work,
      op { s with work := w, response := o } = .next { s with work := w', rxbuf := b, response := some (.done d) }) : Served s op :=
  .completed rfl (fun _ hr => by cases hr) answer

/-- A run on the working registers that always ends, with a response they do not decide. -/
theorem served_conclude {run : Work → Except Fault (Response × Work)} {r : Response} (hr : r.isError = false)
    (hrun : ∀ w, ∃ w', run w = .ok (r, w')) : Served s fun s => conclude (run s.work) s := by
  refine .completed hr (fun _ _ => rfl) fun w o => ?_
  obtain ⟨w', hw'⟩ := hrun w
  exact ⟨w', by dsimp only; rw [hw', conclude_ok]⟩

/-- `CRC8` answers the checksum, whatever the accumulator held (40_checksum.md R113). -/
theorem served_execCrc8 (data : List Byte) : Served s (execCrc8 data) :=
  served_done s (.sum8 (crc8 data)) s.rxbuf fun w _ => ⟨w.runCrc .v8 data, by simp only [execCrc8, runCrc_v8, respond_eq]⟩

/-- `CRC16` answers the checksum, whatever the accumulator held (40_checksum.md R120). -/
theorem served_execCrc16 (data : List Byte) : Served s (execCrc16 data) :=
  served_done s (.sum16 (crc16 data)) s.rxbuf fun w _ => ⟨w.runCrc .v16 data, by simp only [execCrc16, runCrc_v16, respond_eq]⟩

/-- The decoder on any span. -/
theorem served_runDecoder (v : Variant) (bytes : List Byte) : Served s fun s => conclude (runDecoder v bytes s.work) s :=
  served_conclude s (decodeOutcome_isError v bytes) fun w => (runDecoder_spec v bytes w).imp fun _ h => h.1

/-- The scan of any buffer. -/
theorem served_runScan (v : Variant) (buf : List Byte) : Served s fun s => conclude (runScan v buf s.work) s :=
  served_conclude s (isError_of_isScanOutcome (scan_isScanOutcome v buf)) fun w => (runScan_spec v buf w).imp fun _ h => h.1

/-- The encoder refuses its arguments or answers the frame (41_frame_codec.md R141). -/
theorem served_runEncoder (v : Variant) (c : Int) (p : List Byte) : Served s (runEncoder v c p) := by
  cases h : encodable c p with
  | false => exact .refused rfl fun _ _ => runEncoder_refused h _
  | true => exact served_done s _ _ fun _ _ => ⟨_, runEncoder_encodable h _⟩

/-- A buffer operation is refused in profile PURE (30_encoding.md R93), so what it does in OWNED is left to show. -/
theorem served_inOwned {body : State → Answer} (h : Served s body) : Served s fun s => inOwned s (body s) := by
  cases hp : s.cfg.profile with
  | pure => exact .refused (e := .illegalOp) rfl fun w o => inOwned_pure (s := { s with work := w, response := o }) hp _
  | owned =>
    have hbody (w : Work) (o : Option Response) :
        inOwned { s with work := w, response := o } (body { s with work := w, response := o }) =
          body { s with work := w, response := o } :=
      inOwned_owned (s := { s with work := w, response := o }) hp _
    cases h with
    | refused isError answer => exact .refused isError fun w o => (hbody w o).trans (answer w o)
    | completed notError keptOnFailure answer =>
      exact .completed notError keptOnFailure fun w o => (answer w o).imp fun _ => (hbody w o).trans

/-- `FEED` takes the whole chunk or none of it (43_owned_buffer.md R215). -/
theorem served_execFeed (chunk : List Byte) : Served s (execFeed chunk) := by
  refine served_inOwned s ?_
  by_cases h : overflows s.cfg.bufcap s.rxbuf.length chunk.length = true
  · exact .refused rfl fun _ _ => if_pos h
  · exact served_done s .nothing (appendChunk s.rxbuf chunk) fun w _ => ⟨w, if_neg h⟩

/-- `TRIM` removes `k` bytes or none (43_owned_buffer.md R216). -/
theorem served_execTrim (k : Nat) : Served s (execTrim k) := by
  refine served_inOwned s ?_
  by_cases h : s.rxbuf.length < k
  · exact .refused rfl fun _ _ => if_pos h
  · exact served_done s .nothing (dropFront k s.rxbuf) fun w _ => ⟨w, if_neg h⟩

/-- `CLEAR` empties the buffer (43_owned_buffer.md R220). -/
theorem served_execClear : Served s execClear :=
  served_inOwned s <| served_done s .nothing [] fun w _ => ⟨w, rfl⟩

/-- `NEXTv` answers the scan of the buffer and trims it as ordered (43_owned_buffer.md R217). -/
theorem served_runNext (v : Variant) : Served s (runNext v) := by
  have hscan := scan_isScanOutcome v s.rxbuf
  refine served_inOwned s <| .completed (r := scan v s.rxbuf) (b := trimOrdered (scan v s.rxbuf) s.rxbuf)
    (isError_of_isScanOutcome hscan) (fun reason hr => ?_) fun w o => ?_
  · rw [hr] at hscan
    cases hscan
  · obtain ⟨w', hw', -⟩ := runScan_spec v s.rxbuf w
    exact ⟨w', by dsimp only; rw [hw']; rfl⟩

/-- Everything `exec` can do. -/
theorem served_exec (i : Instr) : Served s (exec i) := by
  cases i with
  | crc8 data => exact served_execCrc8 s data
  | crc16 data => exact served_execCrc16 s data
  | enc8 c p => exact served_runEncoder s .v8 c p
  | enc16 c p => exact served_runEncoder s .v16 c p
  | dec8 bytes => exact served_runDecoder s .v8 bytes
  | dec16 bytes => exact served_runDecoder s .v16 bytes
  | scan8 buf => exact served_runScan s .v8 buf
  | scan16 buf => exact served_runScan s .v16 buf
  | feed chunk => exact served_execFeed s chunk
  | trim k => exact served_execTrim s k
  | next8 => exact served_runNext s .v8
  | next16 => exact served_runNext s .v16
  | clear => exact served_execClear s
  | reservedD => exact served_raiseError s rfl
  | reservedE => exact served_raiseError s rfl
  | reservedF => exact served_raiseError s rfl
  | frame8 c p ck => exact served_runDecoder s .v8 (layout c p (.c8 ck))
  | frame16 c p ck => exact served_runDecoder s .v16 (layout c p (.c16 ck))

end Operations

end Sys2Proof.Machine

open Sys2Proof Sys2Proof.Machine

/-- Settles O51: what the failed operation changed, the response and for a decoder the working registers, no later answer depends on. -/
theorem errorsLeaveNothingBehind : Obligations.ErrorsLeaveNothingBehind := by
  intro i s t r hexec hr
  have hserved := served_exec s i
  have herror (he : r.isError = true) : t = { s with response := some r } := hserved.eq_of_isError hexec hr he
  have hfailure (reason : Reason) (hf : r = .decodeFailure reason) : t = { s with work := t.work, response := some r } := by
    subst hf
    exact hserved.eq_of_decodeFailure hexec hr
  refine ⟨herror, hfailure, fun hfailed j => ?_⟩
  have hnext := (served_exec s j).sameAnswer
  rcases hfailed with he | ⟨reason, hf⟩
  · rw [herror he]
    exact hnext s.work (some r)
  · rw [hfailure reason hf]
    exact hnext t.work (some r)

end

section
/-! Frames on the wire, both ways (30_encoding.md sections 1 and 3, 41_frame_codec.md section 3): what the span decoder reads from a
frame's layout, that whatever it reads is such a layout, and the decoder's outcome in those terms. -/

namespace Sys2Proof.Machine

/-- A checksum read at an offset is what `checksumBytes` puts there (30_encoding.md R85). -/
theorem drop_of_readChecksum {v : Variant} {S : List Byte} {a : Nat} {ck : Checksum} (h : readChecksum v S a = some ck) :
    checksumVariant ck = v ∧ S.drop a = checksumBytes ck ++ S.drop (a + ckSize v) := by
  have hlen : a + ckSize v ≤ S.length := by
    have hsome := readChecksum_isSome v S a
    rw [h] at hsome
    simpa using hsome.symm
  have hread {k : Nat} (hk : k < S.length) : S.drop k = byteAt S k :: S.drop (k + 1) := by
    rw [List.drop_eq_getElem_cons hk, byteAt, List.getD_eq_getElem _ _ hk]
  cases v with
  | v8 =>
    rw [readChecksum_v8 hlen] at h
    obtain rfl := Option.some.inj h
    exact ⟨rfl, hread hlen⟩
  | v16 =>
    rw [readChecksum_v16 hlen] at h
    obtain rfl := Option.some.inj h
    refine ⟨rfl, ?_⟩
    rw [hread (show a < S.length by simp [ckSize] at hlen; omega), hread (show a + 1 < S.length from hlen)]
    simp [checksumBytes, hiByte_joinBytes, loByte_joinBytes, ckSize]

/-- A span at least as long as its frame, under a header, is the layout of the fields it declares, and the bytes beyond. -/
theorem eq_layout_append {v : Variant} {S : List Byte} (h0 : byteAt S 0 = head1) (h1 : byteAt S 1 = head2)
    (hlen : minSize v + (byteAt S 3).toNat ≤ S.length) :
    ∃ ck, checksumVariant ck = v ∧ readChecksum v S (4 + (byteAt S 3).toNat) = some ck ∧
      S = layout (byteAt S 2) ((S.drop 4).take (byteAt S 3).toNat) ck ++ S.drop (minSize v + (byteAt S 3).toNat) := by
  have hmin := minSize_eq v
  obtain ⟨ck, hck⟩ := readChecksum_exists v (S := S) (a := 4 + (byteAt S 3).toNat) (by omega)
  obtain ⟨hv, htail⟩ := drop_of_readChecksum hck
  refine ⟨ck, hv, hck, ?_⟩
  have hpayload : ((S.drop 4).take (byteAt S 3).toNat).length = (byteAt S 3).toNat := by
    rw [List.length_take, List.length_drop]; omega
  have hfour : S = byteAt S 0 :: byteAt S 1 :: byteAt S 2 :: byteAt S 3 :: S.drop 4 := by
    match S, hlen with
    | _ :: _ :: _ :: _ :: _, _ => rfl
    | [], h | [_], h | [_, _], h | [_, _, _], h => simp at h; omega
  have hrest : S.drop 4 = (S.drop 4).take (byteAt S 3).toNat ++ (checksumBytes ck ++ S.drop (minSize v + (byteAt S 3).toNat)) := by
    rw [show minSize v + (byteAt S 3).toNat = 4 + (byteAt S 3).toNat + ckSize v by omega, ← htail, ← List.drop_drop,
      List.take_append_drop]
  have hlenByte : lenByte ((S.drop 4).take (byteAt S 3).toNat) = byteAt S 3 := by
    rw [lenByte, hpayload, BitVec.ofNat_toNat, BitVec.setWidth_eq]
  rw [layout_eq, hlenByte]
  simp only [List.cons_append, List.append_assoc]
  rw [← hrest, ← h0, ← h1, ← hfour]

/-- A frame begins with the header. -/
theorem isHeader_layout (c : Byte) (p : List Byte) (ck : Checksum) (rest : List Byte) :
    isHeader (byteAt (layout c p ck ++ rest) 0) (byteAt (layout c p ck ++ rest) 1) = true := by
  rw [byteAt_layout_0, byteAt_layout_1]
  rfl

/-- The span decoder reads a frame's layout back, and leaves the bytes beyond the frame (30_encoding.md R82, R85). -/
theorem decodeWire_layout (c : Byte) {p : List Byte} (hp : p.length ≤ 255) (ck : Checksum) (rest : List Byte) :
    decodeWire (checksumVariant ck) (layout c p ck ++ rest) = .ok (frameInstr c p ck, rest) := by
  have hsize : (layout c p ck ++ rest).length = minSize (checksumVariant ck) + p.length + rest.length := by
    rw [List.length_append, layout_length]
  have hmin := minSize_eq (checksumVariant ck)
  have hlen : (byteAt (layout c p ck ++ rest) 3).toNat = p.length := by rw [byteAt_layout_3, lenByte_toNat hp]
  have hpayload : readSpan (layout c p ck ++ rest) 4 p.length = some p := by
    rw [readSpan_of_le (by omega), payload_layout]
  have hrest : (layout c p ck ++ rest).drop (minSize (checksumVariant ck) + p.length) = rest :=
    List.drop_left' (layout_length c p ck)
  rw [decodeWire, if_neg (by omega), if_neg (by simp), hlen]
  simp only [hpayload, readChecksum_layout, byteAt_layout_2, hrest]

/-- Whatever the span decoder reads is a layout with a payload that fits its LEN byte, before the rest (30_encoding.md R82, R84). -/
theorem layout_of_decodeWire {v : Variant} {bytes rest : List Byte} {i : Instr} (h : decodeWire v bytes = .ok (i, rest)) :
    ∃ c p ck, checksumVariant ck = v ∧ p.length ≤ 255 ∧ i = frameInstr c p ck ∧ bytes = layout c p ck ++ rest := by
  unfold decodeWire at h
  dsimp only at h
  split at h
  · cases h
  · split at h
    · cases h
    · next hhead =>
      obtain ⟨h0, h1⟩ : byteAt bytes 0 = head1 ∧ byteAt bytes 1 = head2 := by simpa using hhead
      split at h
      · next p ck hpayload hck =>
        obtain ⟨rfl, rfl⟩ := Prod.mk.inj (Except.ok.inj h)
        have hsize : minSize v + (byteAt bytes 3).toNat ≤ bytes.length := by
          have hsome := readChecksum_isSome v bytes (4 + (byteAt bytes 3).toNat)
          rw [hck] at hsome
          have hend : 4 + (byteAt bytes 3).toNat + ckSize v ≤ bytes.length := by simpa using hsome.symm
          have hmin := minSize_eq v
          omega
        obtain ⟨ck', hv, hck', hlayout⟩ := eq_layout_append h0 h1 hsize
        obtain rfl := Option.some.inj (hck.symm.trans hck')
        obtain ⟨-, rfl⟩ := readSpan_eq_some hpayload
        have hfits := (byteAt bytes 3).isLt
        exact ⟨_, _, _, hv, by rw [List.length_take]; omega, rfl, hlayout⟩
      · cases h

/-- A span that is no frame is a decoding failure with the same reason (30_encoding.md R88, 41_frame_codec.md R149). -/
theorem decodeOutcome_of_decodeWire_error {v : Variant} {bytes : List Byte} {reason : Reason}
    (h : decodeWire v bytes = .error reason) : decodeOutcome v bytes = .decodeFailure reason := by
  have hmin := minSize_eq v
  unfold decodeWire at h
  unfold decodeOutcome
  dsimp only at h ⊢
  split at h
  · next hshort => rw [if_pos hshort]; cases h; rfl
  · next hshort =>
    rw [if_neg hshort]
    split at h
    · next hhead => rw [if_pos hhead]; cases h; rfl
    · next hhead =>
      rw [if_neg hhead]
      split at h
      · cases h
      · next hunread =>
        cases h
        refine if_pos (Nat.lt_of_not_le fun hsize => ?_)
        obtain ⟨ck, hck⟩ := readChecksum_exists v (S := bytes) (a := 4 + (byteAt bytes 3).toNat) (by omega)
        exact hunread _ ck (readSpan_of_le (by omega)) hck

/-- On a frame's layout the decoder's outcome turns on the checksum field alone (41_frame_codec.md R149 to R151, R153). -/
theorem decodeOutcome_layout (c : Byte) {p : List Byte} (hp : p.length ≤ 255) (ck : Checksum) (rest : List Byte) :
    decodeOutcome (checksumVariant ck) (layout c p ck ++ rest) =
      if crc (checksumVariant ck) (covered c p) = ck then .done (.frame { command := c, payload := p, checksum := ck })
      else .decodeFailure .checksumMismatch := by
  have hsize : (layout c p ck ++ rest).length = minSize (checksumVariant ck) + p.length + rest.length := by
    rw [List.length_append, layout_length]
  have hlen : (byteAt (layout c p ck ++ rest) 3).toNat = p.length := by rw [byteAt_layout_3, lenByte_toNat hp]
  rw [decodeOutcome, if_neg (by omega), if_neg (by simp), hlen]
  dsimp only
  rw [if_neg (by omega), covered_layout, payload_layout, readChecksum_layout, byteAt_layout_2]
  by_cases h : crc (checksumVariant ck) (covered c p) = ck
  · rw [if_pos h, if_pos (congrArg some h.symm), h]
  · rw [if_neg h, if_neg fun hsome => h (Option.some.inj hsome).symm]

/-- A Frame is decoded only from its own bytes, with any bytes beyond (41_frame_codec.md R150). -/
theorem frameBytes_of_decodeOutcome {v : Variant} {bytes : List Byte} {f : Frame} (h : decodeOutcome v bytes = .done (.frame f)) :
    ∃ c p rest, p.length ≤ 255 ∧ f = frameOf v c p ∧ bytes = frameBytes v c p ++ rest := by
  cases hwire : decodeWire v bytes with
  | error reason =>
    rw [decodeOutcome_of_decodeWire_error hwire] at h
    cases h
  | ok x =>
    obtain ⟨c, p, ck, rfl, hp, -, rfl⟩ := layout_of_decodeWire (i := x.1) (rest := x.2) hwire
    rw [decodeOutcome_layout c hp] at h
    split at h
    · next hck =>
      cases h
      exact ⟨c, p, x.2, hp, by rw [frameOf, hck], by rw [frameBytes, hck]⟩
    · cases h

end Sys2Proof.Machine

open Sys2Proof Sys2Proof.Machine

/-- Settles O42: an operation's code selects its row; a frame is read back from its layout. -/
theorem decodingAnEncodedInstructionGivesItBack : Obligations.DecodingAnEncodedInstructionGivesItBack := by
  intro i hwf
  have hframe (c : Byte) {p : List Byte} (hp : p.length ≤ 255) (ck : Checksum) :
      decode (.wire (checksumVariant ck) (layout c p ck)) = .ok (frameInstr c p ck) := by
    have hread := decodeWire_layout c hp ck []
    rw [List.append_nil] at hread
    rw [decode, hread]
    rfl
  cases i with
  | frame8 c p k => exact hframe c (by simpa [Instr.wellFormed] using hwf) (.c8 k)
  | frame16 c p k => exact hframe c (by simpa [Instr.wellFormed] using hwf) (.c16 k)
  | _ => rfl

/-- Settles O43: what the link gives is read from a layout, and each of the sixteen codes is in the table. -/
theorem encodingADecodedInstructionGivesItsBytes : Obligations.EncodingADecodedInstructionGivesItsBytes := by
  refine ⟨fun v bytes rest i h => ?_, fun code o => ?_⟩
  · obtain ⟨c, p, ck, rfl, hp, rfl, rfl⟩ := layout_of_decodeWire h
    refine ⟨?_, layout c p ck, ?_, rfl⟩
    · cases ck <;> simpa [frameInstr, Instr.wellFormed] using hp
    · cases ck <;> rfl
  · obtain ⟨k, hk⟩ := code
    interval_cases k <;> exact ⟨_, rfl⟩

end

section
/-! The two byte orders and the two decoders in numbers (20_memory.md section 2, 41_frame_codec.md section 3), and what each decoder
makes of a frame, of its own variant or the other's. -/

namespace Sys2Proof.Machine

/-- The high byte is the quotient by 256. -/
theorem toNat_hiByte (k : Half) : (hiByte k).toNat = k.toNat / 256 := by
  rw [hiByte, BitVec.toNat_setWidth, BitVec.toNat_ushiftRight, Nat.shiftRight_eq_div_pow]
  omega

/-- The low byte is the remainder. -/
theorem toNat_loByte (k : Half) : (loByte k).toNat = k.toNat % 256 := by
  rw [loByte, BitVec.toNat_setWidth]

/-- Two bytes joined, "the byte at the lower offset is the high one" (30_encoding.md R85), in plain arithmetic. -/
theorem toNat_joinBytes (hi lo : Byte) : (joinBytes hi lo).toNat = hi.toNat * 256 + lo.toNat := by
  have hquot := toNat_hiByte (joinBytes hi lo)
  have hrem := toNat_loByte (joinBytes hi lo)
  rw [hiByte_joinBytes] at hquot
  rw [loByte_joinBytes] at hrem
  omega

/-- A 16-bit checksum is the join of two bytes exactly when it is their number. -/
theorem joinBytes_eq_iff {hi lo : Byte} {k : Half} : joinBytes hi lo = k ↔ k.toNat = hi.toNat * 256 + lo.toNat := by
  rw [← toNat_joinBytes, eq_comm, ← BitVec.toNat_inj]

/-- The `V8` decoder's outcome with its one checksum byte named (41_frame_codec.md R149, R151). -/
theorem decodeOutcome_v8 (bytes : List Byte) :
    decodeOutcome .v8 bytes =
      if bytes.length < 5 then .decodeFailure .tooShort
      else if byteAt bytes 0 ≠ 0xAA#8 ∨ byteAt bytes 1 ≠ 0xBB#8 then .decodeFailure .headerMismatch
      else if bytes.length < 5 + (byteAt bytes 3).toNat then .decodeFailure .lengthExceedsSpan
      else if crc8 ((bytes.drop 2).take (2 + (byteAt bytes 3).toNat)) ≠ byteAt bytes (4 + (byteAt bytes 3).toNat) then
        .decodeFailure .checksumMismatch
      else .done (.frame {
        command := byteAt bytes 2
        payload := (bytes.drop 4).take (byteAt bytes 3).toNat
        checksum := .c8 (crc8 ((bytes.drop 2).take (2 + (byteAt bytes 3).toNat))) }) := by
  refine ite_congr rfl (fun _ => rfl) fun _ => ite_congr rfl (fun _ => rfl) fun _ => ite_congr rfl (fun _ => rfl) fun hlen => ?_
  change ¬ bytes.length < 5 + (byteAt bytes 3).toNat at hlen
  rw [ite_not, readChecksum_v8 (by omega)]
  exact if_congr (by simp [crc, eq_comm]) rfl rfl

/-- The `V16` decoder's outcome with its two checksum bytes named (41_frame_codec.md R149, R152). -/
theorem decodeOutcome_v16 (bytes : List Byte) :
    decodeOutcome .v16 bytes =
      if bytes.length < 6 then .decodeFailure .tooShort
      else if byteAt bytes 0 ≠ 0xAA#8 ∨ byteAt bytes 1 ≠ 0xBB#8 then .decodeFailure .headerMismatch
      else if bytes.length < 6 + (byteAt bytes 3).toNat then .decodeFailure .lengthExceedsSpan
      else if (crc16 ((bytes.drop 2).take (2 + (byteAt bytes 3).toNat))).toNat ≠
          (byteAt bytes (4 + (byteAt bytes 3).toNat)).toNat * 256 + (byteAt bytes (5 + (byteAt bytes 3).toNat)).toNat then
        .decodeFailure .checksumMismatch
      else .done (.frame {
        command := byteAt bytes 2
        payload := (bytes.drop 4).take (byteAt bytes 3).toNat
        checksum := .c16 (crc16 ((bytes.drop 2).take (2 + (byteAt bytes 3).toNat))) }) := by
  refine ite_congr rfl (fun _ => rfl) fun _ => ite_congr rfl (fun _ => rfl) fun _ => ite_congr rfl (fun _ => rfl) fun hlen => ?_
  change ¬ bytes.length < 6 + (byteAt bytes 3).toNat at hlen
  have hnext : 4 + (byteAt bytes 3).toNat + 1 = 5 + (byteAt bytes 3).toNat := by omega
  rw [ite_not, readChecksum_v16 (by omega), hnext]
  exact if_congr (by simp [crc, joinBytes_eq_iff]) rfl rfl

/-- The length failure says that the declared size exceeds the span (41_frame_codec.md R149). -/
theorem length_lt_of_decodeOutcome {v : Variant} {bytes : List Byte} (h : decodeOutcome v bytes = .decodeFailure .lengthExceedsSpan) :
    bytes.length < minSize v + (byteAt bytes 3).toNat := by
  by_contra hlen
  unfold decodeOutcome at h
  dsimp only at h
  split at h
  · cases h
  · split at h
    · cases h
    · split at h <;> cases h

/-- A `V8` frame with a payload declares, as `V16`, a byte more than it holds (41_frame_codec.md section 4). -/
theorem decodeOutcome_v16_of_v8 (c : Byte) {p : List Byte} (hne : 1 ≤ p.length) (hp : p.length ≤ 255) :
    decodeOutcome .v16 (frameBytes .v8 c p) = .decodeFailure .lengthExceedsSpan := by
  have hsize : (frameBytes .v8 c p ++ []).length = 5 + p.length := by rw [List.append_nil, frameBytes_length, minSize]
  have hlen : (byteAt (frameBytes .v8 c p ++ []) 3).toNat = p.length := by rw [frameBytes, byteAt_layout_3, lenByte_toNat hp]
  have hhead : ¬ (byteAt (frameBytes .v8 c p ++ []) 0 ≠ head1 ∨ byteAt (frameBytes .v8 c p ++ []) 1 ≠ head2) := by
    rw [frameBytes, byteAt_layout_0, byteAt_layout_1]
    simp
  rw [← List.append_nil (frameBytes .v8 c p), decodeOutcome, if_neg (by rw [hsize, minSize]; omega), if_neg hhead, hlen]
  exact if_pos (by rw [hsize, minSize]; omega)

/-- A `V16` frame is the layout of a `V8` one, the high checksum byte in its field, and the low byte beyond (30_encoding.md R85). -/
theorem frameBytes_v16 (c : Byte) (p : List Byte) :
    frameBytes .v16 c p = layout c p (.c8 (hiByte (crc16 (covered c p)))) ++ [loByte (crc16 (covered c p))] := by
  simp [frameBytes, layout_eq, crc, checksumBytes]

/-- A frame's own bytes are answered by its checksum field alone (log 6). -/
theorem exec_decodeOp_layout (c : Byte) {p : List Byte} (hp : p.length ≤ 255) (ck : Checksum) (s : State) :
    ∃ w : Work, exec (Instr.decodeOp (checksumVariant ck) (layout c p ck)) s = .next { s with
      work := w
      response := some (if crc (checksumVariant ck) (covered c p) = ck then
        .done (.frame { command := c, payload := p, checksum := ck }) else .decodeFailure .checksumMismatch) } := by
  have houtcome := decodeOutcome_layout c hp ck []
  rw [List.append_nil] at houtcome
  rw [← houtcome]
  exact exec_decodeOp _ _ s

end Sys2Proof.Machine

open Sys2Proof Sys2Proof.Machine

/-- Settles O10: the two bytes are quotient and remainder by 256, and a read joins them. -/
theorem wideChecksumIsBigEndianOnTheWire : Obligations.WideChecksumIsBigEndianOnTheWire := by
  refine ⟨fun k => ⟨hiByte k, loByte k, rfl, toNat_hiByte k, toNat_loByte k⟩, fun S a k => ?_, fun S a k => ?_⟩
  · simp only [readChecksum, memRead, Option.bind_eq_some_iff, Option.map_eq_some_iff, Checksum.c16.injEq, joinBytes_eq_iff]
    exact ⟨fun ⟨hi, hhi, lo, hlo, hk⟩ => ⟨hi, lo, hhi, hlo, hk⟩, fun ⟨hi, lo, hhi, hlo, hk⟩ => ⟨hi, hhi, lo, hlo, hk⟩⟩
  · simp [readChecksum, memRead]

/-- Settles O15: the decoder's outcome, the checksum byte named. -/
theorem dec8AnswersByTheTestsInOrder : Obligations.Dec8AnswersByTheTestsInOrder := by
  intro bytes s
  rw [← decodeOutcome_v8]
  exact exec_decodeOp .v8 bytes s

/-- Settles O16: the decoder's outcome, the checksum bytes named. -/
theorem dec16AnswersByTheTestsInOrder : Obligations.Dec16AnswersByTheTestsInOrder := by
  intro bytes s
  rw [← decodeOutcome_v16]
  exact exec_decodeOp .v16 bytes s

/-- Settles O17: a decoded span is a frame's bytes and some more, and with still more appended it is decoded alike. -/
theorem decodersIgnoreBytesBeyondTheFrame : Obligations.DecodersIgnoreBytesBeyondTheFrame := by
  have houtcome {v : Variant} {bytes : List Byte} {s t : State} {r : Response}
      (hexec : exec (Instr.decodeOp v bytes) s = .next t) (hr : t.response = some r) : decodeOutcome v bytes = r := by
    obtain ⟨w, hw⟩ := exec_decodeOp v bytes s
    obtain rfl := Host.Outcome.next.inj (hexec.symm.trans hw)
    exact Option.some.inj hr
  refine ⟨fun v bytes extra s t f hexec hr => ?_, fun v bytes s t hexec hr => length_lt_of_decodeOutcome (houtcome hexec hr)⟩
  obtain ⟨c, p, rest, hp, rfl, rfl⟩ := frameBytes_of_decodeOutcome (houtcome hexec hr)
  obtain ⟨w, hw⟩ := exec_decodeOp v (frameBytes v c p ++ rest ++ extra) s
  exact ⟨_, hw, by rw [List.append_assoc, decodeOutcome_frameBytes v c hp]⟩

/-- Settles O19: by the sizes for `DEC16`, and for `DEC8` by the `V8` layout that a `V16` frame begins with. -/
theorem framesOfTheOtherVariant : Obligations.FramesOfTheOtherVariant := by
  refine ⟨fun c s => ?_, fun c p s hne hp => ?_, fun c p s hp => ?_⟩
  · have hshort : decodeOutcome .v16 (frameBytes .v8 c []) = .decodeFailure .tooShort :=
      if_pos (by rw [frameBytes_length]; decide)
    rw [← hshort]
    exact exec_decodeOp .v16 _ s
  · rw [← decodeOutcome_v16_of_v8 c hne hp]
    exact exec_decodeOp .v16 _ s
  · obtain ⟨w, hw⟩ := exec_decodeOp .v8 (frameBytes .v16 c p) s
    have houtcome := decodeOutcome_layout c hp (.c8 (hiByte (crc16 (covered c p)))) [loByte (crc16 (covered c p))]
    rw [← frameBytes_v16, checksumVariant] at houtcome
    refine ⟨w, hw.trans ?_⟩
    rw [houtcome]
    simp only [crc, Checksum.c8.injEq]
    split
    · next h => rw [h]
    · rfl

/-- Settles O20: a wire frame is answered as the decoder answers its layout. -/
theorem wireFramesAreRecognisedByTheirChecksum : Obligations.WireFramesAreRecognisedByTheirChecksum := by
  refine ⟨fun c p k s hp => ?_, fun c p k s hp => ?_⟩
  · have hlayout := exec_decodeOp_layout c hp (.c8 k) s
    simp only [crc, checksumVariant, Checksum.c8.injEq] at hlayout
    exact hlayout
  · have hlayout := exec_decodeOp_layout c hp (.c16 k) s
    simp only [crc, checksumVariant, Checksum.c16.injEq] at hlayout
    exact hlayout

end

section
/-! The Checksum Engine's operations and the encoders (40_checksum.md, 41_frame_codec.md section 2), through `exec`, and the constants they
rest on. -/

namespace Sys2Proof.Machine

/-- One iteration of R119 on numbers. -/
def shift16Nat (x : Nat) : Nat := if x % 2 = 1 then (x / 2) ^^^ 0xA001 else x / 2

/-- The bottom bit says whether the number is odd, and a shift right halves it. -/
theorem toNat_shift16 (a : Half) : (shift16 a).toNat = shift16Nat a.toNat := by
  have hhalve : (a >>> 1).toNat = a.toNat / 2 := by rw [BitVec.toNat_ushiftRight, Nat.shiftRight_one]
  have hbottom : a.getLsbD 0 = true ↔ a.toNat % 2 = 1 := by simp [BitVec.getLsbD, Nat.testBit_zero]
  simp only [shift16, shift16Nat, hbottom]
  split
  · rw [BitVec.toNat_xor, hhalve]
    rfl
  · exact hhalve

/-- Zero bytes leave the initial accumulator 0 as it is (40_checksum.md R113). -/
theorem crc8_zeros_append (k : Nat) (data : List Byte) : crc8 (List.replicate k 0x00#8 ++ data) = crc8 data := by
  induction k with
  | zero => rfl
  | succ k ih =>
    have hzero : step8 init8 0x00#8 = init8 := by decide
    rw [List.replicate_succ, List.cons_append, crc8, List.foldl_cons, hzero]
    exact ih

/-- Outside R141's ranges an encoder refuses, and nothing but the response is new (60_exceptions.md R236). -/
theorem exec_encodeOp_refused (v : Variant) {c : Int} {p : List Byte} (h : encodable c p = false) (s : State) :
    exec (Instr.encodeOp v c p) s = .next { s with response := some .invalidArgument } := by
  cases v <;> exact runEncoder_refused h s

/-- The high byte as bits 15 to 8 (20_memory.md R53). -/
theorem hiByte_eq_extractLsb' (k : Half) : hiByte k = k.extractLsb' 8 8 := by
  rw [← BitVec.toNat_inj, toNat_hiByte, BitVec.extractLsb'_toNat, Nat.shiftRight_eq_div_pow]
  omega

/-- The low byte as bits 7 to 0 (20_memory.md R53). -/
theorem loByte_eq_extractLsb' (k : Half) : loByte k = k.extractLsb' 0 8 := by
  rw [← BitVec.toNat_inj, toNat_loByte, BitVec.extractLsb'_toNat, Nat.shiftRight_zero]

/-- The bytes of an encodable frame are exactly a valid frame (41_frame_codec.md R145). -/
theorem isFrameSpan_frameBytes (v : Variant) (c : Byte) {p : List Byte} (hp : p.length ≤ 255) :
    isFrameSpan v (frameBytes v c p) = true := by
  obtain ⟨ck, hck⟩ : ∃ ck, crc v (covered c p) = ck := ⟨_, rfl⟩
  have hv : checksumVariant ck = v := hck ▸ checksumVariant_crc v _
  have hlen : (byteAt (layout c p ck ++ []) 3).toNat = p.length := by rw [byteAt_layout_3, lenByte_toNat hp]
  have hsize := layout_length c p ck
  have hread := readChecksum_layout c p ck []
  rw [hv] at hsize hread
  rw [frameBytes, hck, ← List.append_nil (layout c p ck), isFrameSpan, hlen, isHeader_layout, covered_layout, hread, hck]
  simp [hsize]

end Sys2Proof.Machine

open Sys2Proof Sys2Proof.Machine

/-- Settles O2: sixteen bits, and two variants. -/
theorem constantsAgreeWithEachOther : Obligations.ConstantsAgreeWithEachOther :=
  ⟨by decide, fun v => ⟨minSize_eq v, by cases v <;> rfl⟩⟩

/-- Settles O5: reading a 16-bit value as a number commutes with one iteration, hence with eight. -/
theorem byteStep16IsEightShiftsOfTheXor : Obligations.ByteStep16IsEightShiftsOfTheXor := by
  intro a b
  have hcommute : Function.Semiconj BitVec.toNat shift16 shift16Nat := toNat_shift16
  have hbyte : (b.setWidth 16).toNat = b.toNat := BitVec.toNat_setWidth_of_le (by decide)
  calc (step16 a b).toNat
      = (shift16^[8] (a ^^^ b.setWidth 16)).toNat := by rw [step16, times_eq_iterate]
    _ = shift16Nat^[8] (a ^^^ b.setWidth 16).toNat := hcommute.iterate_right 8 (a ^^^ b.setWidth 16)
    _ = shift16Nat^[8] (a.toNat ^^^ b.toNat) := by rw [BitVec.toNat_xor, hbyte]

/-- Settles O6: the accumulator ends as the fold. -/
theorem crc8AnswersTheFoldOfItsByteStep : Obligations.Crc8AnswersTheFoldOfItsByteStep := by
  intro data s
  have hrun := runCrc_v8 data s.work
  refine ⟨s.work.runCrc .v8 data, ?_, ?_, ?_, runCrc_ph .v8 data s.work, runCrc_i .v8 data s.work⟩
  · rw [exec, execCrc8, respond_eq, hrun]
    rfl
  all_goals rw [hrun]
  rfl

/-- Settles O7: the accumulator ends as the fold. -/
theorem crc16AnswersTheFoldOfItsByteStep : Obligations.Crc16AnswersTheFoldOfItsByteStep := by
  intro data s
  have hrun := runCrc_v16 data s.work
  refine ⟨s.work.runCrc .v16 data, ?_, ?_, ?_, runCrc_ph .v16 data s.work, runCrc_i .v16 data s.work⟩
  · rw [exec, execCrc16, respond_eq, hrun]
    rfl
  all_goals rw [hrun]
  rfl

/-- Settles O8: the fold of `CRC8` passes over the zeros. -/
theorem leadingZerosAreInvisibleToCrc8 : Obligations.LeadingZerosAreInvisibleToCrc8 := by
  refine ⟨fun k data s => ?_, by decide⟩
  obtain ⟨w, hw, -⟩ := crc8AnswersTheFoldOfItsByteStep (List.replicate k 0x00#8 ++ data) s
  refine ⟨w, hw.trans ?_⟩
  rw [← crc8_zeros_append k data]
  rfl

/-- Settles O11: both outcomes of the argument check. -/
theorem enc8AnswersTheFrameOrRefuses : Obligations.Enc8AnswersTheFrameOrRefuses := by
  refine fun c p s => ⟨fun h => exec_encodeOp_encodable .v8 (encodable_iff.mpr h) s, fun h => ?_⟩
  exact exec_encodeOp_refused .v8 (Bool.eq_false_iff.mpr fun henc => h (encodable_iff.mp henc)) s

/-- Settles O12: both outcomes of the argument check, the checksum's bytes as bit fields. -/
theorem enc16AnswersTheFrameOrRefuses : Obligations.Enc16AnswersTheFrameOrRefuses := by
  refine fun c p s => ⟨fun h => ?_, fun h => ?_⟩
  · rw [← hiByte_eq_extractLsb', ← loByte_eq_extractLsb']
    exact exec_encodeOp_encodable .v16 (encodable_iff.mpr h) s
  · exact exec_encodeOp_refused .v16 (Bool.eq_false_iff.mpr fun henc => h (encodable_iff.mp henc)) s

/-- Settles O13: a command on an 8-bit port is in range, so `encodable` is the length test. -/
theorem withByteWideCommandsOnlyTheLengthIsTested : Obligations.WithByteWideCommandsOnlyTheLengthIsTested := by
  intro v c p s hpos
  have hc : 0 ≤ c ∧ c < 2 ^ 8 := by cases v <;> simpa [Instr.encodeOp, Instr.posable, commandFits] using hpos
  have henc : encodable c p = true ↔ p.length ≤ 255 := by
    rw [encodable_iff]
    omega
  by_cases hp : p.length ≤ 255
  · obtain ⟨w, hw⟩ := exec_encodeOp_encodable v (henc.mpr hp) s
    refine iff_of_false (fun hrefused => ?_) (by omega)
    have hresponse := congrArg State.response (Host.Outcome.next.inj (hw.symm.trans hrefused))
    cases hresponse
  · exact iff_of_true (exec_encodeOp_refused v (Bool.eq_false_iff.mpr fun h => hp (henc.mp h)) s) (by omega)

/-- Settles O14: what an encoder answers with wire bytes is `frameBytes` of an encodable payload. -/
theorem encodersOutputValidFrames : Obligations.EncodersOutputValidFrames := by
  intro v c p b s t hexec hr
  cases henc : encodable c p with
  | false =>
    obtain rfl := Host.Outcome.next.inj (hexec.symm.trans (exec_encodeOp_refused v henc s))
    cases hr
  | true =>
    obtain ⟨w, hw⟩ := exec_encodeOp_encodable v henc s
    obtain rfl := Host.Outcome.next.inj (hexec.symm.trans hw)
    cases hr
    obtain ⟨-, -, hp⟩ := encodable_iff.mp henc
    have hsize := frameBytes_length v (commandByte c) p
    obtain ⟨-, hmax⟩ := constantsAgreeWithEachOther.2 v
    refine ⟨isFrameSpan_frameBytes v _ hp, hsize, ?_⟩
    rw [hsize, hmax, lenMax]
    omega

end

section
/-! Candidates as frame layouts (42_defragmenter.md section 4), the three ways a scan can end, and what each says of the buffer; one phase
of the machine. -/

namespace Sys2Proof.Machine

section Candidate

variable {buf rest : List Byte} {i : Nat} {c : Byte} {p : List Byte} {ck : Checksum}

/-- A byte of the candidate, read in the buffer. -/
theorem byteAt_of_drop {S : List Byte} (hd : buf.drop i = S) (k : Nat) : byteAt buf (i + k) = byteAt S k := by
  rw [← hd, byteAt_drop]

/-- How far the buffer reaches past the start of a frame. -/
theorem length_of_drop_layout (hd : buf.drop i = layout c p ck ++ rest) :
    buf.length - i = minSize (checksumVariant ck) + p.length + rest.length := by
  rw [← List.length_drop, hd, List.length_append, layout_length]

/-- A frame begins with a header match. -/
theorem matchAt_of_layout (hd : buf.drop i = layout c p ck ++ rest) : matchAt buf i = true := by
  have hlen := length_of_drop_layout hd
  have hfive := five_le_minSize (checksumVariant ck)
  have h0 : byteAt buf i = byteAt (layout c p ck ++ rest) 0 := byteAt_of_drop hd 0
  rw [matchAt, h0, byteAt_of_drop hd, isHeader_layout, decide_eq_true (by omega)]
  rfl

section Payload

variable (hp : p.length ≤ 255) (hd : buf.drop i = layout c p ck ++ rest)
include hp hd

/-- The LEN byte of the candidate. -/
theorem lenByte_of_layout : (byteAt buf (i + 3)).toNat = p.length := by
  rw [byteAt_of_drop hd, byteAt_layout_3, lenByte_toNat hp]

/-- A frame that has arrived whole is a complete candidate. -/
theorem completeAt_of_layout : completeAt (checksumVariant ck) buf i = true := by
  have hlen := length_of_drop_layout hd
  simp [completeAt, lenByte_of_layout hp hd, hlen, Nat.add_assoc]

/-- The candidate's Frame, its checksum recomputed (42_defragmenter.md R179). -/
theorem candidateAt_of_layout (v : Variant) : candidateAt v buf i = frameOf v c p := by
  have h2 : byteAt buf (i + 2) = c := by rw [byteAt_of_drop hd, byteAt_layout_2]
  rw [candidateAt, lenByte_of_layout hp hd, h2, ← List.drop_drop, ← List.drop_drop, hd, payload_layout, covered_layout, frameOf]

/-- A whole frame is valid exactly when its checksum field is right. -/
theorem validAt_of_layout :
    validAt (checksumVariant ck) buf i = decide (ck = crc (checksumVariant ck) (covered c p)) := by
  have hread : readChecksum (checksumVariant ck) buf (i + 4 + p.length) = some ck := by
    rw [Nat.add_assoc, ← readChecksum_drop, hd, readChecksum_layout]
  simp [validAt, completeAt_of_layout hp hd, candidateAt_of_layout hp hd, lenByte_of_layout hp hd, hread, frameOf]

end Payload

/-- A complete header match is the layout of a frame. -/
theorem exists_layout_of_completeAt {v : Variant} (hm : matchAt buf i = true) (hc : completeAt v buf i = true) :
    ∃ c p ck rest, checksumVariant ck = v ∧ p.length ≤ 255 ∧ buf.drop i = layout c p ck ++ rest := by
  have h0 : byteAt (buf.drop i) 0 = byteAt buf i := byteAt_drop buf i 0
  have h1 : byteAt (buf.drop i) 1 = byteAt buf (i + 1) := byteAt_drop buf i 1
  have h3 : byteAt (buf.drop i) 3 = byteAt buf (i + 3) := byteAt_drop buf i 3
  simp only [matchAt, isHeader, Bool.and_eq_true, decide_eq_true_eq] at hm
  simp only [completeAt, Bool.and_eq_true, decide_eq_true_eq] at hc
  obtain ⟨-, hhead1, hhead2⟩ := hm
  obtain ⟨ck, hv, -, hlayout⟩ := eq_layout_append (v := v) (h0.trans hhead1) (h1.trans hhead2)
    (by rw [h3, List.length_drop]; exact hc.2)
  have hfits := (byteAt (buf.drop i) 3).isLt
  exact ⟨_, _, ck, _, hv, by rw [List.length_take]; omega, hlayout⟩

end Candidate

/-- A buffer below `MIN(v)` needs more data (42_defragmenter.md R171 line (a)). -/
theorem scan_of_lt_minSize {v : Variant} {buf : List Byte} (h : buf.length < minSize v) : scan v buf = .needMoreData := if_pos h

/-- A valid candidate is its frame's bytes. -/
theorem exists_frameBytes_of_validAt {v : Variant} {buf : List Byte} {i : Nat} (hm : matchAt buf i = true)
    (hv : validAt v buf i = true) : ∃ c p rest, p.length ≤ 255 ∧ buf.drop i = frameBytes v c p ++ rest := by
  obtain ⟨c, p, ck, rest, rfl, hp, hd⟩ := exists_layout_of_completeAt hm (completeAt_of_validAt hv)
  rw [validAt_of_layout hp hd, decide_eq_true_eq] at hv
  exact ⟨c, p, rest, hp, by rw [hd, frameBytes, ← hv]⟩

section Outcomes

variable {v : Variant} {buf : List Byte}

/-- A header match that is not rejected is incomplete or valid (42_defragmenter.md R190). -/
theorem incomplete_or_valid_of_not_rejectedAt {i : Nat} (hm : matchAt buf i = true) (h : ¬ rejectedAt v buf i = true) :
    completeAt v buf i = false ∨ validAt v buf i = true := by
  simp only [rejectedAt, hm, Bool.true_and, Bool.and_eq_true, Bool.not_eq_true'] at h
  cases hc : completeAt v buf i with
  | false => exact .inl rfl
  | true => exact .inr (by simpa [hc] using h)

/-- Every match is rejected, or there is a first one that is incomplete or valid. -/
theorem all_rejected_or_first (v : Variant) (buf : List Byte) :
    (∀ j, matchAt buf j = true → rejectedAt v buf j = true) ∨
      ∃ i, matchAt buf i = true ∧ (completeAt v buf i = false ∨ validAt v buf i = true) ∧
        ∀ j < i, matchAt buf j = true → rejectedAt v buf j = true := by
  by_cases h : ∃ i, matchAt buf i = true ∧ ¬ rejectedAt v buf i = true
  · obtain ⟨hm, hnot⟩ := Nat.find_spec h
    refine .inr ⟨_, hm, incomplete_or_valid_of_not_rejectedAt hm hnot, fun j hj hmj => ?_⟩
    by_contra hrej
    exact Nat.find_min h hj ⟨hmj, hrej⟩
  · exact .inl fun j hm => by_contra fun hrej => h ⟨j, hm, hrej⟩

/-- A whole frame is reported when every match before it is rejected (42_defragmenter.md R178, R195). -/
theorem scan_of_frameBytes {i : Nat} {c : Byte} {p rest : List Byte} (hp : p.length ≤ 255)
    (hd : buf.drop i = frameBytes v c p ++ rest) (hpass : ∀ j < i, matchAt buf j = true → rejectedAt v buf j = true) :
    scan v buf = .frameFound (frameOf v c p) (i + minSize v + p.length) := by
  have hv := validAt_of_layout hp hd
  rw [checksumVariant_crc, decide_eq_true rfl] at hv
  rw [scan_of_validAt (matchAt_of_layout hd) hv hpass, candidateAt_of_layout hp hd, lenByte_of_layout hp hd]

/-- The three ways a scan can end: more data needed; a valid candidate reported, which is a frame's bytes in the buffer; or every match
rejected and all but a dangling byte discarded (42_defragmenter.md R174 to R176). -/
theorem scan_cases (v : Variant) (buf : List Byte) :
    scan v buf = .needMoreData ∨
      (∃ i c p rest, p.length ≤ 255 ∧ validAt v buf i = true ∧ buf.drop i = frameBytes v c p ++ rest ∧
        scan v buf = .frameFound (frameOf v c p) (i + minSize v + p.length)) ∨
      (minSize v ≤ buf.length ∧
        scan v buf = .noFrameDiscard (if byteAt buf (buf.length - 1) = head1 then buf.length - 1 else buf.length)) := by
  rcases Nat.lt_or_ge buf.length (minSize v) with hshort | hmin
  · exact .inl (scan_of_lt_minSize hshort)
  rcases all_rejected_or_first v buf with hall | ⟨i, hm, hinc | hv, hpass⟩
  · exact .inr (.inr ⟨hmin, scan_of_all_rejected hmin hall⟩)
  · exact .inl (scan_of_not_completeAt hmin hm hinc hpass)
  · obtain ⟨c, p, rest, hp, hd⟩ := exists_frameBytes_of_validAt hm hv
    exact .inr (.inl ⟨i, c, p, rest, hp, hv, hd, scan_of_frameBytes hp hd hpass⟩)

/-- Where a reported frame stands in the buffer. -/
theorem scan_eq_frameFound {f : Frame} {consumed : Nat} (h : scan v buf = .frameFound f consumed) :
    ∃ i c p rest, p.length ≤ 255 ∧ validAt v buf i = true ∧ buf.drop i = frameBytes v c p ++ rest ∧ f = frameOf v c p ∧
      consumed = i + minSize v + p.length := by
  rcases scan_cases v buf with hs | ⟨i, c, p, rest, hp, hv, hd, hs⟩ | ⟨-, hs⟩ <;> rw [hs] at h <;> cases h
  exact ⟨i, c, p, rest, hp, hv, hd, rfl, rfl⟩

/-- What a discard says of the buffer. -/
theorem scan_eq_noFrameDiscard {n : Nat} (h : scan v buf = .noFrameDiscard n) :
    minSize v ≤ buf.length ∧ n = if byteAt buf (buf.length - 1) = head1 then buf.length - 1 else buf.length := by
  rcases scan_cases v buf with hs | ⟨_, _, _, _, _, _, _, hs⟩ | ⟨hmin, hs⟩ <;> rw [hs] at h <;> cases h
  exact ⟨hmin, rfl⟩

/-- A proper initial part of a frame, if long enough to be scanned, begins with an incomplete candidate (42_defragmenter.md R197). -/
theorem scan_take_frameBytes {c : Byte} {p : List Byte} (hp : p.length ≤ 255) {k : Nat} (hk : k < minSize v + p.length) :
    scan v ((frameBytes v c p).take k) = .needMoreData := by
  have hlen : ((frameBytes v c p).take k).length = k := by rw [List.length_take, frameBytes_length]; omega
  rcases Nat.lt_or_ge k (minSize v) with hshort | hmin
  · exact scan_of_lt_minSize (by omega)
  have hfive := five_le_minSize v
  have hbyte {j : Nat} (hj : j < k) : byteAt ((frameBytes v c p).take k) j = byteAt (frameBytes v c p ++ []) j := by
    rw [List.append_nil, ← byteAt_append_left ((frameBytes v c p).drop k) (hlen.symm ▸ hj), List.take_append_drop]
  have hm : matchAt ((frameBytes v c p).take k) 0 = true := by
    rw [matchAt, hlen, hbyte (by omega), hbyte (by omega), frameBytes, isHeader_layout, decide_eq_true (by omega)]
    rfl
  have hdeclared : (byteAt ((frameBytes v c p).take k) (0 + 3)).toNat = p.length := by
    rw [hbyte (by omega), frameBytes, byteAt_layout_3, lenByte_toNat hp]
  have hinc : completeAt v ((frameBytes v c p).take k) 0 = false := by
    simp only [completeAt, hdeclared, hlen, Nat.sub_zero, Bool.and_eq_false_iff, decide_eq_false_iff_not]
    omega
  exact scan_of_not_completeAt (by omega) hm hinc fun j hj => absurd hj (Nat.not_lt_zero j)

/-- The closed form's search finds the least match that is incomplete or valid (42_defragmenter.md R190). -/
theorem scan_eq_scanClosed (v : Variant) (buf : List Byte) : scan v buf = scanClosed v buf := by
  rcases Nat.lt_or_ge buf.length (minSize v) with hshort | hmin
  · rw [scan_of_lt_minSize hshort, scanClosed, if_pos hshort]
  have hrejected {j : Nat} (h : matchAt buf j = true → rejectedAt v buf j = true) :
      (matchAt buf j && (!completeAt v buf j || validAt v buf j)) = false := by
    cases hm : matchAt buf j with
    | false => rfl
    | true => simpa [rejectedAt, hm] using h hm
  rw [scanClosed, if_neg (Nat.not_lt.mpr hmin)]
  rcases all_rejected_or_first v buf with hall | ⟨i, hm, hend, hpass⟩
  · rw [scan_of_all_rejected hmin hall, List.find?_eq_none.mpr fun j _ => by rw [hrejected (hall j)]; exact Bool.false_ne_true]
  · have hfind : (List.range (buf.length - 1)).find? (fun i => matchAt buf i && (!completeAt v buf i || validAt v buf i)) = some i := by
      have hi := add_two_le_of_matchAt hm
      refine List.find?_range_eq_some.mpr ⟨?_, List.mem_range.mpr (by omega), fun j hj => ?_⟩
      · rcases hend with hinc | hv
        · simp [hm, hinc]
        · simp [hm, hv]
      · rw [hrejected (hpass j hj)]
        rfl
    rw [hfind]
    rcases hend with hinc | hv
    · simpa [hinc] using scan_of_not_completeAt hmin hm hinc hpass
    · simpa [completeAt_of_validAt hv] using scan_of_validAt hm hv hpass

/-- A frame with a wrong checksum field at the start of a buffer is not what a scan reports: what it reports starts later
(42_defragmenter.md R196). -/
theorem lt_consumed_of_corrupted {c : Byte} {p rest : List Byte} {ck : Checksum} (hp : p.length ≤ 255)
    (hck : ck ≠ crc (checksumVariant ck) (covered c p)) {f : Frame} {consumed : Nat}
    (h : scan (checksumVariant ck) (layout c p ck ++ rest) = .frameFound f consumed) :
    minSize (checksumVariant ck) + f.payload.length < consumed := by
  obtain ⟨i, c', p', rest', -, hv, -, rfl, rfl⟩ := scan_eq_frameFound h
  have hi : i ≠ 0 := by
    rintro rfl
    rw [validAt_of_layout hp (List.drop_zero (l := layout c p ck ++ rest)), decide_eq_true_eq] at hv
    exact hck hv
  change minSize _ + p'.length < _
  omega

end Outcomes

section Phases

variable {v : Variant} {buf : List Byte} {w w' : Work}

/-- A read that the rules go on from has succeeded. -/
theorem exists_of_orFault_bind {α β : Type} {x : Option α} {f : α → Except Fault β} {y : β} (h : orFault x >>= f = .ok y) :
    ∃ a, x = some a ∧ f a = .ok y := by
  cases x with
  | none => cases h
  | some a => exact ⟨a, rfl, h⟩

/-- Everything `HUNT` can do (42_defragmenter.md R182). -/
theorem phaseHunt_cases (h : phaseHunt buf w = .ok w') :
    w' = { w with ph := .tDiscard } ∨ w' = { w with ph := .span } ∨ w' = { w with i := w.i + 1 } := by
  unfold phaseHunt at h
  split at h
  · cases h; exact .inl rfl
  · obtain ⟨a, -, h⟩ := exists_of_orFault_bind h
    obtain ⟨b, -, h⟩ := exists_of_orFault_bind h
    split at h <;> cases h
    · exact .inr (.inl rfl)
    · exact .inr (.inr rfl)

/-- `SPAN` keeps the index and the length (42_defragmenter.md R183). -/
theorem phaseSpan_keeps (h : phaseSpan v buf w = .ok w') : w'.i = w.i ∧ w'.l = w.l := by
  unfold phaseSpan at h
  dsimp only at h
  split at h
  · cases h; exact ⟨rfl, rfl⟩
  · obtain ⟨n, -, h⟩ := exists_of_orFault_bind h
    split at h <;> cases h <;> exact ⟨rfl, rfl⟩

/-- `SUM` keeps the index and the length (42_defragmenter.md R184). -/
theorem phaseSum_keeps (h : phaseSum v buf w = .ok w') : w'.i = w.i ∧ w'.l = w.l := by
  obtain ⟨body, -, h⟩ := exists_of_orFault_bind h
  cases h
  exact ⟨runCrc_i v body w, runCrc_l v body w⟩

/-- Everything `CMP` can do (42_defragmenter.md R185). -/
theorem phaseCmp_cases (h : phaseCmp v buf w = .ok w') :
    w' = { w with ph := .tFound } ∨ w' = { w with i := w.i + 1, ph := .hunt } := by
  obtain ⟨ck, -, h⟩ := exists_of_orFault_bind h
  split at h <;> cases h
  · exact .inl rfl
  · exact .inr rfl

end Phases

end Sys2Proof.Machine

open Sys2Proof Sys2Proof.Machine

/-- Settles O21: the machine's run ends in `IDLE` with the outcome of `scan`. -/
theorem scanMachineRespondsAsTheScanFunction : Obligations.ScanMachineRespondsAsTheScanFunction := by
  have hscan (v : Variant) (buf : List Byte) (s : State) : ∃ w : Work,
      conclude (runScan v buf s.work) s = .next { s with work := w, response := some (scan v buf) } ∧ w.ph = .idle ∧
        w.l = buf.length := by
    obtain ⟨w, hrun, hph, hl⟩ := runScan_spec v buf s.work
    exact ⟨w, by rw [hrun, conclude_ok], hph, hl⟩
  exact ⟨hscan .v8, hscan .v16⟩

/-- Settles O22. -/
theorem scanOutcomeHasTheClosedForm : Obligations.ScanOutcomeHasTheClosedForm := scan_eq_scanClosed

/-- Settles O24: the walk ends at the incomplete match, and does not begin in a short buffer. -/
theorem incompleteCandidateBlocksTheScan : Obligations.IncompleteCandidateBlocksTheScan := by
  have hshort (v : Variant) (buf : List Byte) (s : State) (h : buf.length < minSize v) : ∃ w : Work,
      exec (Instr.scanOp v buf) s = .next { s with work := w, response := some .needMoreData } := by
    rw [← scan_of_lt_minSize h]
    exact exec_scanOp v buf s
  refine ⟨fun v buf i s hm hinc hpass => ?_, hshort⟩
  rcases Nat.lt_or_ge buf.length (minSize v) with h | hmin
  · exact hshort v buf s h
  · rw [← scan_of_not_completeAt hmin hm hinc hpass]
    exact exec_scanOp v buf s

/-- Settles O25: the walk comes to the last byte. -/
theorem onlyADanglingFirstHeaderByteIsKept : Obligations.OnlyADanglingFirstHeaderByteIsKept := by
  intro v buf s hmin hall
  obtain ⟨w, hw⟩ := exec_scanOp v buf s
  rw [scan_of_all_rejected hmin hall] at hw
  exact ⟨w, hw⟩

/-- Settles O27: the candidate's span is a frame's layout, which both judge by its checksum field. -/
theorem candidatesAreValidatedByTheDecoder : Obligations.CandidatesAreValidatedByTheDecoder := by
  intro v buf i s hm hc
  obtain ⟨c, p, ck, rest, rfl, hp, hd⟩ := exists_layout_of_completeAt hm hc
  have hspan : (buf.drop i).take (minSize (checksumVariant ck) + (byteAt buf (i + 3)).toNat) = layout c p ck := by
    rw [lenByte_of_layout hp hd, hd, List.take_left' (layout_length c p ck)]
  rw [hspan, validAt_of_layout hp hd, candidateAt_of_layout hp hd]
  obtain ⟨w, hw⟩ := exec_decodeOp_layout c hp ck s
  refine ⟨w, hw.trans ?_⟩
  by_cases h : crc (checksumVariant ck) (covered c p) = ck
  · simp only [h, frameOf, decide_true, if_true]
  · simp only [h, Ne.symm h, decide_false, if_false, Bool.false_eq_true]

/-- Settles O28: phase by phase, in the order of `phaseStep`; the three terminal phases only go to `IDLE`. -/
theorem scanIndexMovesByOneAtMost : Obligations.ScanIndexMovesByOneAtMost := by
  intro v buf w w' h
  unfold phaseStep at h
  split at h
  · next hph => cases h; simp [hph, phaseIdle]
  · next hph =>
    cases h
    unfold phaseMinchk
    split <;> simp [hph]
  · next hph => rcases phaseHunt_cases h with rfl | rfl | rfl <;> simp [hph]
  · next hph => obtain ⟨hi, hl⟩ := phaseSpan_keeps h; simp [hph, hi, hl]
  · next hph => obtain ⟨hi, hl⟩ := phaseSum_keeps h; simp [hph, hi, hl]
  · next hph => rcases phaseCmp_cases h with rfl | rfl <;> simp [hph]
  all_goals
    next hph => cases h; simp [hph]

/-- Settles O29: a proper initial part begins with an incomplete candidate, the whole frame with a valid one. -/
theorem frameIsFoundOnlyWhenItsLastByteArrives : Obligations.FrameIsFoundOnlyWhenItsLastByteArrives := by
  refine fun v c p s hp => ⟨fun k hk => ?_, ?_⟩
  · rw [frameBytes_length] at hk
    rw [← scan_take_frameBytes hp hk]
    exact exec_scanOp v _ s
  · have hfound := scan_of_frameBytes (i := 0) (rest := []) hp (List.append_nil (frameBytes v c p)).symm
      fun j hj => absurd hj (Nat.not_lt_zero j)
    rw [Nat.zero_add] at hfound
    rw [← hfound]
    exact exec_scanOp v _ s

/-- Settles O30: the frame is the first match that is not rejected. -/
theorem frameBetweenNoiseIsFound : Obligations.FrameBetweenNoiseIsFound := by
  intro v noise1 noise2 p c s hp hpass
  have hd : (noise1 ++ frameBytes v c p ++ noise2).drop noise1.length = frameBytes v c p ++ noise2 := by
    rw [List.append_assoc, List.drop_left]
  rw [← scan_of_frameBytes hp hd hpass]
  exact exec_scanOp v _ s

/-- Settles O31: at offset 0 stands no valid candidate, so what is found starts later. -/
theorem corruptedFrameIsNeverReported : Obligations.CorruptedFrameIsNeverReported := by
  intro c p rest s t f consumed hp hr
  have hfound {v : Variant} {buf : List Byte} (hexec : exec (Instr.scanOp v buf) s = .next t) :
      scan v buf = .frameFound f consumed := by
    obtain ⟨w, hw⟩ := exec_scanOp v buf s
    obtain rfl := Host.Outcome.next.inj (hexec.symm.trans hw)
    exact Option.some.inj hr
  refine ⟨fun k hk hexec => ?_, fun k hk hexec => ?_⟩
  · exact lt_consumed_of_corrupted (ck := .c8 k) hp (fun h => hk (Checksum.c8.inj h)) (hfound (v := .v8) hexec)
  · exact lt_consumed_of_corrupted (ck := .c16 k) hp (fun h => hk (Checksum.c16.inj h)) (hfound (v := .v16) hexec)

end

section
/-! What every operation answers, as one function of the parameters, the buffer and the instruction (30_encoding.md R95, 10_state.md R36,
R38): the response and the buffer of the next state. What holds of every answer is then read off this function. -/

namespace Sys2Proof.Machine

/-- The encoder as one function of its operands (41_frame_codec.md R141 to R143). -/
def encodeOutcome (v : Variant) (c : Int) (p : List Byte) : Response :=
  if encodable c p then .done (.wire (frameBytes v (commandByte c) p)) else .invalidArgument

/-- A buffer operation's response and buffer, which profile PURE refuses (30_encoding.md R93). -/
def ownedEffect (cfg : Config) (b : List Byte) (x : Response × List Byte) : Response × List Byte :=
  match cfg.profile with
  | .owned => x
  | .pure => (.illegalOp, b)

/-- The response of an instruction and the buffer it leaves; `exec_effect` ties it to the machine. -/
def effect (cfg : Config) (b : List Byte) : Instr → Response × List Byte
  | .crc8 data => (.done (.sum8 (crc8 data)), b)
  | .crc16 data => (.done (.sum16 (crc16 data)), b)
  | .enc8 c p => (encodeOutcome .v8 c p, b)
  | .enc16 c p => (encodeOutcome .v16 c p, b)
  | .dec8 bytes => (decodeOutcome .v8 bytes, b)
  | .dec16 bytes => (decodeOutcome .v16 bytes, b)
  | .scan8 buf => (scan .v8 buf, b)
  | .scan16 buf => (scan .v16 buf, b)
  | .feed chunk => ownedEffect cfg b
      (if overflows cfg.bufcap b.length chunk.length then (.bufferFull, b) else (.done .nothing, b ++ chunk))
  | .trim k => ownedEffect cfg b (if b.length < k then (.trimRange, b) else (.done .nothing, b.drop k))
  | .next8 => ownedEffect cfg b (scan .v8 b, trimOrdered (scan .v8 b) b)
  | .next16 => ownedEffect cfg b (scan .v16 b, trimOrdered (scan .v16 b) b)
  | .clear => ownedEffect cfg b (.done .nothing, [])
  | .reservedD | .reservedE | .reservedF => (.illegalOp, b)
  | .frame8 c p k => (decodeOutcome .v8 (layout c p (.c8 k)), b)
  | .frame16 c p k => (decodeOutcome .v16 (layout c p (.c16 k)), b)

/-- What the invariant asks of the working registers (10_state.md R24, R31). -/
def Work.AtRest (w : Work) : Prop := w.ph = .idle ∧ w.bitcnt ≤ 8

/-- The answer is a next state with this response and this buffer, in which nothing else is new but the working registers, and these are
left at rest. -/
def Answers (s : State) (x : Response × List Byte) (a : Answer) : Prop :=
  ∃ w : Work, a = .next { s with work := w, rxbuf := x.2, response := some x.1 } ∧ (s.work.AtRest → w.AtRest)

section Operations

variable (s : State)

/-- An error writes nothing (60_exceptions.md R236). -/
theorem answers_raiseError (e : Response) : Answers s (e, s.rxbuf) (raiseError e s) := ⟨s.work, rfl, id⟩

/-- An operation that leaves the working registers alone. -/
theorem answers_respond (r : Response) (b : List Byte) : Answers s (r, b) (respond r s.work (s.setRxbuf b)) := ⟨s.work, rfl, id⟩

/-- A checksum computation leaves the registers at rest. -/
theorem atRest_runCrc (v : Variant) (data : List Byte) {w : Work} (h : w.AtRest) : (w.runCrc v data).AtRest :=
  ⟨(runCrc_ph v data w).trans h.1, runCrc_bitcnt_le v data h.2⟩

/-- `CRC8` answers the checksum (40_checksum.md R113). -/
theorem answers_execCrc8 (data : List Byte) : Answers s (.done (.sum8 (crc8 data)), s.rxbuf) (execCrc8 data s) := by
  refine ⟨s.work.runCrc .v8 data, ?_, atRest_runCrc .v8 data⟩
  rw [execCrc8, respond_eq, runCrc_v8]

/-- `CRC16` answers the checksum (40_checksum.md R120). -/
theorem answers_execCrc16 (data : List Byte) : Answers s (.done (.sum16 (crc16 data)), s.rxbuf) (execCrc16 data s) := by
  refine ⟨s.work.runCrc .v16 data, ?_, atRest_runCrc .v16 data⟩
  rw [execCrc16, respond_eq, runCrc_v16]

/-- An encoder answers the frame or refuses (41_frame_codec.md R141 to R143). -/
theorem answers_runEncoder (v : Variant) (c : Int) (p : List Byte) : Answers s (encodeOutcome v c p, s.rxbuf) (runEncoder v c p s) := by
  cases h : encodable c p with
  | false =>
    rw [encodeOutcome, h, runEncoder_refused h]
    exact answers_raiseError s .invalidArgument
  | true =>
    rw [encodeOutcome, h, runEncoder_encodable h]
    exact ⟨_, rfl, fun hrest => atRest_runCrc v _ (w := { s.work with n := lenByte p }) hrest⟩

/-- A decoder answers its outcome on the span (41_frame_codec.md R149 to R152). -/
theorem answers_runDecoder (v : Variant) (bytes : List Byte) :
    Answers s (decodeOutcome v bytes, s.rxbuf) (conclude (runDecoder v bytes s.work) s) := by
  obtain ⟨w, hrun, hph, -, -, -, -, hbit⟩ := runDecoder_spec v bytes s.work
  rw [hrun, conclude_ok]
  exact ⟨w, rfl, fun ⟨hidle, hle⟩ => ⟨hph.trans hidle, hbit hle⟩⟩

/-- A scan leaves the registers at rest. -/
theorem runScan_atRest {v : Variant} {buf : List Byte} {w w' : Work} {r : Response} (h : runScan v buf w = .ok (r, w'))
    (hw : w.AtRest) : w'.AtRest := runPhases_inv h hw.2

/-- A scan answers its outcome on the buffer it is given (42_defragmenter.md R172, R173). -/
theorem answers_runScan (v : Variant) (buf : List Byte) : Answers s (scan v buf, s.rxbuf) (conclude (runScan v buf s.work) s) := by
  obtain ⟨w, hrun, -⟩ := runScan_spec v buf s.work
  refine ⟨w, ?_, runScan_atRest hrun⟩
  rw [hrun, conclude_ok]

/-- A buffer operation answers as its body does in OWNED, and is refused in PURE (30_encoding.md R93). -/
theorem answers_inOwned {x : Response × List Byte} {body : Answer} (h : Answers s x body) :
    Answers s (ownedEffect s.cfg s.rxbuf x) (inOwned s body) := by
  cases hp : s.cfg.profile with
  | owned => simpa only [ownedEffect, hp, inOwned_owned hp] using h
  | pure => simpa only [ownedEffect, hp, inOwned] using answers_raiseError s .illegalOp

/-- `NEXTv` answers the scan of the buffer and trims it as ordered (43_owned_buffer.md R217). -/
theorem answers_runNext (v : Variant) :
    Answers s (ownedEffect s.cfg s.rxbuf (scan v s.rxbuf, trimOrdered (scan v s.rxbuf) s.rxbuf)) (runNext v s) := by
  obtain ⟨w, hrun, -⟩ := runScan_spec v s.rxbuf s.work
  refine answers_inOwned s ⟨w, ?_, runScan_atRest hrun⟩
  rw [hrun]
  rfl

/-- `FEED` takes the whole chunk or none of it (43_owned_buffer.md R215). -/
theorem answers_execFeed (chunk : List Byte) : Answers s (effect s.cfg s.rxbuf (.feed chunk)) (execFeed chunk s) := by
  refine answers_inOwned s ?_
  split
  · exact answers_raiseError s .bufferFull
  · exact answers_respond s (.done .nothing) (s.rxbuf ++ chunk)

/-- `TRIM` removes `k` bytes or none (43_owned_buffer.md R216). -/
theorem answers_execTrim (k : Nat) : Answers s (effect s.cfg s.rxbuf (.trim k)) (execTrim k s) := by
  refine answers_inOwned s ?_
  split
  · exact answers_raiseError s .trimRange
  · exact answers_respond s (.done .nothing) (s.rxbuf.drop k)

/-- Every instruction in every state answers a next state with the response and the buffer that `effect` gives. -/
theorem exec_effect (i : Instr) : Answers s (effect s.cfg s.rxbuf i) (exec i s) := by
  cases i with
  | crc8 data => exact answers_execCrc8 s data
  | crc16 data => exact answers_execCrc16 s data
  | enc8 c p => exact answers_runEncoder s .v8 c p
  | enc16 c p => exact answers_runEncoder s .v16 c p
  | dec8 bytes => exact answers_runDecoder s .v8 bytes
  | dec16 bytes => exact answers_runDecoder s .v16 bytes
  | scan8 buf => exact answers_runScan s .v8 buf
  | scan16 buf => exact answers_runScan s .v16 buf
  | feed chunk => exact answers_execFeed s chunk
  | trim k => exact answers_execTrim s k
  | next8 => exact answers_runNext s .v8
  | next16 => exact answers_runNext s .v16
  | clear => exact answers_inOwned s (answers_respond s (.done .nothing) [])
  | reservedD | reservedE | reservedF => exact answers_raiseError s .illegalOp
  | frame8 c p k => exact answers_runDecoder s .v8 (layout c p (.c8 k))
  | frame16 c p k => exact answers_runDecoder s .v16 (layout c p (.c16 k))

/-- The same, of a known next state. -/
theorem eq_of_exec {i : Instr} {t : State} (h : exec i s = .next t) :
    t = { s with work := t.work, rxbuf := (effect s.cfg s.rxbuf i).2, response := some (effect s.cfg s.rxbuf i).1 } ∧
      (s.work.AtRest → t.work.AtRest) := by
  obtain ⟨w, hw, hrest⟩ := exec_effect s i
  obtain rfl := Host.Outcome.next.inj (h.symm.trans hw)
  exact ⟨rfl, hrest⟩

end Operations

/-! ## The response -/

/-- A buffer operation does what it does in OWNED, or is refused. -/
theorem ownedEffect_cases (cfg : Config) (b : List Byte) (x : Response × List Byte) :
    ownedEffect cfg b x = x ∨ ownedEffect cfg b x = (.illegalOp, b) := by
  unfold ownedEffect
  split
  · exact .inl rfl
  · exact .inr rfl

/-- A property of the response that `IllegalOp` has and the operation's own response has. -/
theorem ownedEffect_response {P : Response → Prop} (cfg : Config) (b : List Byte) {x : Response × List Byte} (hill : P .illegalOp)
    (hx : P x.1) : P (ownedEffect cfg b x).1 := by
  rcases ownedEffect_cases cfg b x with h | h <;> rw [h]
  · exact hx
  · exact hill

/-- An encoder answers `Done` or `InvalidArgument`. -/
theorem status_encodeOutcome (v : Variant) (c : Int) (p : List Byte) : (encodeOutcome v c p).status ∈ [0#3, 1#3] := by
  unfold encodeOutcome
  split <;> simp [Response.status]

/-- A decoder answers `Done` or `DecodeFailure`. -/
theorem status_decodeOutcome (v : Variant) (bytes : List Byte) : (decodeOutcome v bytes).status ∈ [0#3, 2#3] := by
  rcases decodeOutcome_cases v bytes with ⟨f, h⟩ | ⟨reason, h⟩ <;> rw [h] <;> simp [Response.status]

/-- The codes of the three outcomes of a scan. -/
theorem status_of_isScanOutcome {r : Response} (h : r.isScanOutcome = true) : r.status ∈ [3#3, 4#3, 5#3] := by
  cases r <;> cases h <;> simp [Response.status]

/-- A scan answers one of the three (42_defragmenter.md R170). -/
theorem status_scan (v : Variant) (buf : List Byte) : (scan v buf).status ∈ [3#3, 4#3, 5#3] :=
  status_of_isScanOutcome (scan_isScanOutcome v buf)

/-- The "returned by" column of 30_encoding.md R95. -/
theorem status_effect (cfg : Config) (b : List Byte) (i : Instr) : (effect cfg b i).1.status ∈ statusesOf i := by
  have hnext (v : Variant) :
      (ownedEffect cfg b (scan v b, trimOrdered (scan v b) b)).1.status ∈ [3#3, 4#3, 5#3, 6#3] :=
    ownedEffect_response (P := fun r => r.status ∈ [3#3, 4#3, 5#3, 6#3]) cfg b (by decide)
      (List.mem_append_left [6#3] (status_scan v b))
  cases i with
  | crc8 | crc16 | reservedD | reservedE | reservedF => exact List.mem_singleton_self _
  | enc8 c p => exact status_encodeOutcome .v8 c p
  | enc16 c p => exact status_encodeOutcome .v16 c p
  | dec8 bytes => exact status_decodeOutcome .v8 bytes
  | dec16 bytes => exact status_decodeOutcome .v16 bytes
  | frame8 c p k => exact status_decodeOutcome .v8 _
  | frame16 c p k => exact status_decodeOutcome .v16 _
  | scan8 buf => exact status_scan .v8 buf
  | scan16 buf => exact status_scan .v16 buf
  | feed chunk =>
    exact ownedEffect_response (P := fun r => r.status ∈ [0#3, 6#3, 7#3]) cfg b (by decide) (by split <;> simp [Response.status])
  | trim k =>
    exact ownedEffect_response (P := fun r => r.status ∈ [0#3, 6#3, 7#3]) cfg b (by decide) (by split <;> simp [Response.status])
  | next8 => exact hnext .v8
  | next16 => exact hnext .v16
  | clear => exact ownedEffect_response (P := fun r => r.status ∈ [0#3, 6#3]) cfg b (by decide) (by decide)

/-- The width of the checksum tells the variant. -/
theorem frameVariant_frameOf (v : Variant) (c : Byte) (p : List Byte) : frameVariant (frameOf v c p) = v := by cases v <;> rfl

/-- The Frame of a frame's bytes is valid (10_state.md R38). -/
theorem frameValid_frameOf (v : Variant) (c : Byte) {p : List Byte} (hp : p.length ≤ 255) : frameValid (frameOf v c p) = true := by
  rw [frameValid, frameVariant_frameOf, frameOf]
  simp [lenMax, hp]

/-- A discard leaves nothing or one byte that can begin a header, and removes `MIN(v) - 1` bytes or more (42_defragmenter.md R192). -/
theorem drop_of_scan_eq_noFrameDiscard {v : Variant} {buf : List Byte} {n : Nat} (h : scan v buf = .noFrameDiscard n) :
    minSize v ≤ n + 1 ∧ (buf.drop n = [] ∨ buf.drop n = [head1]) := by
  obtain ⟨hmin, rfl⟩ := scan_eq_noFrameDiscard h
  have hfive := five_le_minSize v
  split
  · next hlast =>
    refine ⟨by omega, .inr ?_⟩
    obtain ⟨a, ha⟩ : ∃ a, buf.drop (buf.length - 1) = [a] := List.length_eq_one_iff.mp (by rw [List.length_drop]; omega)
    have hbyte : byteAt buf (buf.length - 1) = a := byteAt_of_drop ha 0
    rw [ha, ← hbyte, hlast]
  · exact ⟨by omega, .inl List.drop_length⟩

/-- An encoder's wire bytes are a frame (41_frame_codec.md R145). -/
theorem responseSound_encodeOutcome (v : Variant) (c : Int) (p : List Byte) : responseSound (encodeOutcome v c p) = true := by
  unfold encodeOutcome
  split
  · next h =>
    obtain ⟨-, -, hp⟩ := encodable_iff.mp h
    have hspan := isFrameSpan_frameBytes v (commandByte c) hp
    cases v <;> simp [responseSound, hspan]
  · rfl

/-- A decoder's Frame is valid (10_state.md R38). -/
theorem responseSound_decodeOutcome (v : Variant) (bytes : List Byte) : responseSound (decodeOutcome v bytes) = true := by
  rcases decodeOutcome_cases v bytes with ⟨f, h⟩ | ⟨reason, h⟩
  · obtain ⟨c, p, -, hp, rfl, -⟩ := frameBytes_of_decodeOutcome h
    rw [h]
    exact frameValid_frameOf v c hp
  · rw [h]
    rfl

/-- A scan's Frame is valid, and it orders the removal of the whole frame or of 4 bytes at least (42_defragmenter.md R192). -/
theorem responseSound_scan (v : Variant) (buf : List Byte) : responseSound (scan v buf) = true := by
  cases h : scan v buf with
  | frameFound f consumed =>
    obtain ⟨i, c, p, -, hp, -, -, rfl, rfl⟩ := scan_eq_frameFound h
    have hconsumed : minSize v + p.length ≤ i + minSize v + p.length := by omega
    rw [responseSound, frameValid_frameOf v c hp, frameVariant_frameOf]
    exact decide_eq_true hconsumed
  | noFrameDiscard n =>
    have hfive := five_le_minSize v
    obtain ⟨hmin, -⟩ := drop_of_scan_eq_noFrameDiscard h
    exact decide_eq_true (by omega)
  | needMoreData => rfl
  | _ =>
    have hscan := scan_isScanOutcome v buf
    rw [h] at hscan
    cases hscan

/-- Every response keeps to 10_state.md R38, 41_frame_codec.md R145 and 42_defragmenter.md R192. -/
theorem responseSound_effect (cfg : Config) (b : List Byte) (i : Instr) : responseSound (effect cfg b i).1 = true := by
  have howned {x : Response × List Byte} (hx : responseSound x.1 = true) : responseSound (ownedEffect cfg b x).1 = true :=
    ownedEffect_response (P := fun r => responseSound r = true) cfg b rfl hx
  cases i with
  | crc8 | crc16 | reservedD | reservedE | reservedF => rfl
  | enc8 c p => exact responseSound_encodeOutcome .v8 c p
  | enc16 c p => exact responseSound_encodeOutcome .v16 c p
  | dec8 bytes => exact responseSound_decodeOutcome .v8 bytes
  | dec16 bytes => exact responseSound_decodeOutcome .v16 bytes
  | frame8 c p k => exact responseSound_decodeOutcome .v8 _
  | frame16 c p k => exact responseSound_decodeOutcome .v16 _
  | scan8 buf => exact responseSound_scan .v8 buf
  | scan16 buf => exact responseSound_scan .v16 buf
  | feed chunk => exact howned (by split <;> rfl)
  | trim k => exact howned (by split <;> rfl)
  | next8 => exact howned (responseSound_scan .v8 b)
  | next16 => exact howned (responseSound_scan .v16 b)
  | clear => exact howned rfl

/-! ## The buffer -/

/-- A buffer operation keeps the buffer in profile PURE (10_state.md R37). -/
theorem ownedEffect_pure {cfg : Config} (h : cfg.profile = .pure) (b : List Byte) (x : Response × List Byte) :
    ownedEffect cfg b x = (.illegalOp, b) := by simp [ownedEffect, h]

/-- In profile PURE no operation changes the buffer (10_state.md R37). -/
theorem effect_buffer_of_pure {cfg : Config} (h : cfg.profile = .pure) (b : List Byte) (i : Instr) : (effect cfg b i).2 = b := by
  cases i with
  | feed | trim | next8 | next16 | clear => rw [effect, ownedEffect_pure h]
  | _ => rfl

/-- An operation outside R50's "written by" column keeps the buffer. -/
theorem effect_buffer_of_not_writes {i : Instr} (h : Space.rxbuf ∉ writesSpace i) (cfg : Config) (b : List Byte) :
    (effect cfg b i).2 = b := by
  cases i with
  | feed | trim | next8 | next16 | clear => exact absurd (List.mem_singleton_self _) h
  | _ => rfl

/-- `FEED` appends its chunk, if it fits; nothing else adds to the buffer, and what is removed is removed at its front
(10_state.md R36). -/
theorem effect_buffer_cases (cfg : Config) (b : List Byte) (i : Instr) :
    (∃ chunk, i = .feed chunk ∧ overflows cfg.bufcap b.length chunk.length = false ∧ (effect cfg b i).2 = b ++ chunk) ∨
      ∃ k, (effect cfg b i).2 = b.drop k := by
  have howned {x : Response × List Byte} (hx : ∃ k, x.2 = b.drop k) : ∃ k, (ownedEffect cfg b x).2 = b.drop k := by
    rcases ownedEffect_cases cfg b x with h | h <;> rw [h]
    · exact hx
    · exact ⟨0, rfl⟩
  cases i with
  | feed chunk =>
    cases hfull : overflows cfg.bufcap b.length chunk.length with
    | true => exact .inr (howned ⟨0, by rw [hfull]; rfl⟩)
    | false =>
      rcases ownedEffect_cases cfg b (.done .nothing, b ++ chunk) with h | h
      · exact .inl ⟨chunk, rfl, hfull, by rw [effect, hfull]; exact congrArg Prod.snd h⟩
      · exact .inr ⟨0, by rw [effect, hfull]; exact congrArg Prod.snd h⟩
  | trim k => exact .inr (howned (by split; exacts [⟨0, rfl⟩, ⟨k, rfl⟩]))
  | next8 => exact .inr (howned (trimOrdered_eq _ b))
  | next16 => exact .inr (howned (trimOrdered_eq _ b))
  | clear => exact .inr (howned ⟨b.length, List.drop_length.symm⟩)
  | _ => exact .inr ⟨0, rfl⟩

/-- No operation makes a buffer that fits too long (10_state.md R36). -/
theorem rxbufFits_effect {cfg : Config} {b : List Byte} (h : rxbufFits cfg.bufcap b = true) (i : Instr) :
    rxbufFits cfg.bufcap (effect cfg b i).2 = true := by
  rcases effect_buffer_cases cfg b i with ⟨chunk, -, hfits, hb⟩ | ⟨k, hb⟩ <;> rw [hb]
  · exact rxbufFits_append hfits
  · exact rxbufFits_dropFront k h

/-- An operation outside R50's columns for `RXBUF` is a run on the working registers alone. -/
theorem exec_eq_conclude_of_not_writes {i : Instr} (h : Space.rxbuf ∉ writesSpace i) :
    ∃ run : Work → Except Fault (Response × Work), ∀ s : State, exec i s = conclude (run s.work) s := by
  have hencoder (v : Variant) (c : Int) (p : List Byte) :
      ∃ run : Work → Except Fault (Response × Work), ∀ s : State, runEncoder v c p s = conclude (run s.work) s := by
    cases henc : encodable c p with
    | false => exact ⟨fun w => .ok (.invalidArgument, w), fun s => runEncoder_refused henc s⟩
    | true =>
      exact ⟨fun w => .ok (_, { w with n := lenByte p }.runCrc v (covered (commandByte c) p)), fun s => runEncoder_encodable henc s⟩
  cases i with
  | feed | trim | next8 | next16 | clear => exact absurd (List.mem_singleton_self _) h
  | crc8 data => exact ⟨fun w => .ok (.done (.sum8 (w.runCrc .v8 data).acc8), w.runCrc .v8 data), fun _ => rfl⟩
  | crc16 data => exact ⟨fun w => .ok (.done (.sum16 (w.runCrc .v16 data).acc16), w.runCrc .v16 data), fun _ => rfl⟩
  | enc8 c p => exact hencoder .v8 c p
  | enc16 c p => exact hencoder .v16 c p
  | dec8 bytes => exact ⟨runDecoder .v8 bytes, fun _ => rfl⟩
  | dec16 bytes => exact ⟨runDecoder .v16 bytes, fun _ => rfl⟩
  | scan8 buf => exact ⟨runScan .v8 buf, fun _ => rfl⟩
  | scan16 buf => exact ⟨runScan .v16 buf, fun _ => rfl⟩
  | reservedD | reservedE | reservedF => exact ⟨fun w => .ok (.illegalOp, w), fun _ => rfl⟩
  | frame8 c p k => exact ⟨runDecoder .v8 (layout c p (.c8 k)), fun _ => rfl⟩
  | frame16 c p k => exact ⟨runDecoder .v16 (layout c p (.c16 k)), fun _ => rfl⟩

/-- A run on the working registers neither reads nor writes the buffer. -/
theorem conclude_setRxbuf {run : Except Fault (Response × Work)} {s t : State} (h : conclude run s = .next t) (b : List Byte) :
    conclude run (s.setRxbuf b) = .next (t.setRxbuf b) := by
  obtain ⟨r, w, rfl, rfl⟩ := conclude_next s h
  rfl

end Sys2Proof.Machine

open Sys2Proof Sys2Proof.Machine

/-- Settles O1: reset's values are its definition, and every instruction is answered in every state. -/
theorem resetIsIdleEmptyAndReady : Obligations.ResetIsIdleEmptyAndReady := by
  refine fun cfg => ⟨rfl, rfl, rfl, rfl, rfl, fun i => ?_⟩
  obtain ⟨w, hw, -⟩ := exec_effect (State.resetWith cfg) i
  exact ⟨_, _, hw, rfl⟩

/-- Settles O3: the codes as the tables give them, and `effect` keeps to the "returned by" column. -/
theorem everyOutcomeIsOneTheTableGives : Obligations.EveryOutcomeIsOneTheTableGives := by
  refine ⟨fun _ _ _ _ => ⟨rfl, rfl, rfl, rfl, rfl, rfl, rfl, rfl, rfl⟩, ⟨rfl, rfl, rfl, rfl⟩, fun r => ?_, fun i s t r hexec hr => ?_⟩
  · cases r <;> simp [Response.isError, Response.status]
  · obtain ⟨ht, -⟩ := eq_of_exec s hexec
    rw [ht] at hr
    obtain rfl := Option.some.inj hr
    exact status_effect s.cfg s.rxbuf i

/-- Settles O52: how `effect` changes the buffer; the other operations run on the working registers alone. -/
theorem rxbufChangesOnlyAtItsEnds : Obligations.RxbufChangesOnlyAtItsEnds := by
  intro i s t hexec
  obtain ⟨ht, -⟩ := eq_of_exec s hexec
  have hbuffer : t.rxbuf = (effect s.cfg s.rxbuf i).2 := by rw [ht]
  have hcfg : t.cfg = s.cfg := by rw [ht]
  refine ⟨?_, fun hchanged => ?_, fun hfits => ?_, fun hnot b => ?_⟩
  · rw [hbuffer]
    rcases effect_buffer_cases s.cfg s.rxbuf i with ⟨chunk, hi, -, hb⟩ | ⟨k, hb⟩
    · exact ⟨0, chunk, hb, fun _ => ⟨rfl, hi⟩⟩
    · exact ⟨k, [], by rw [hb, List.append_nil], fun hne => absurd rfl hne⟩
  · by_contra hnot
    exact hchanged (hbuffer.trans (effect_buffer_of_not_writes hnot s.cfg s.rxbuf))
  · rw [hbuffer, hcfg]
    exact rxbufFits_effect hfits i
  · obtain ⟨run, hrun⟩ := exec_eq_conclude_of_not_writes hnot
    rw [hrun] at hexec
    rw [hrun]
    exact conclude_setRxbuf hexec b

/-- Settles O53: `effect` gives the response and the buffer, and in profile PURE the buffer is the old one. -/
theorem pureBlockHoldsNothing : Obligations.PureBlockHoldsNothing := by
  intro i s t hexec
  obtain ⟨ht, -⟩ := eq_of_exec s hexec
  refine ⟨by rw [ht], by rw [ht], fun hp => ?_⟩
  rw [effect_buffer_of_pure hp] at ht
  rw [ht]

end

section
/-! One step of the machine (00_scope.md R14): the request it serves, what it keeps, and that no run stops or depends on the working
registers. -/

namespace Sys2Proof.Machine

/-- A step with a request serves the oldest one. -/
theorem step_of_requests_cons {s : State} {r : Request} {rest : List Request} (h : s.requests = r :: rest) :
    step s = serve r (s.setRequests rest) := by
  rw [step, takeStep, h]

/-- A step with no request (log 11). -/
theorem step_of_requests_nil {s : State} (h : s.requests = []) : step s = .next { s with response := none } := by
  have hidle : takeStep s = idleStep s := by rw [takeStep, h]
  exact hidle

/-- A request that does not decode is answered with the decoder's reason; any other is executed. -/
theorem served_serve (s : State) (r : Request) : Served s (serve r) := by
  unfold serve
  cases decode r with
  | ok i => exact served_exec s i
  | error reason => exact .completed (r := .decodeFailure reason) rfl (fun _ _ => rfl) fun w _ => ⟨w, rfl⟩

/-- A served operation goes on (20_memory.md R59, 42_defragmenter.md R191). -/
theorem Served.exists_next {s : State} {op : State → Answer} (h : Served s op) : ∃ t, op s = .next t := by
  cases h with
  | refused _ answer => exact ⟨_, answer s.work s.response⟩
  | completed _ _ answer =>
    obtain ⟨w, hw⟩ := answer s.work s.response
    exact ⟨_, hw⟩

/-- No step stops. -/
theorem step_exists_next (s : State) : ∃ t, step s = .next t := by
  cases hq : s.requests with
  | nil => exact ⟨_, step_of_requests_nil hq⟩
  | cons r rest =>
    rw [step_of_requests_cons hq]
    exact (served_serve _ r).exists_next

/-- No step's answer depends on the working registers (10_state.md R28). -/
theorem step_sameAnswer (s : State) (w : Work) : sameAnswer (step s) (step (s.setWork w)) := by
  cases hq : s.requests with
  | nil =>
    rw [step_of_requests_nil hq, step_of_requests_nil (s := s.setWork w) hq]
    rfl
  | cons r rest =>
    rw [step_of_requests_cons hq, step_of_requests_cons (s := s.setWork w) hq]
    exact (served_serve (s.setRequests rest) r).sameAnswer w s.response

/-- Two states alike to a caller step alike. -/
theorem exists_step_of_sameToCaller {s s' t : State} (hs : sameToCaller s s') (h : step s = .next t) :
    ∃ t', step s' = .next t' ∧ sameToCaller t t' := by
  obtain ⟨t', ht'⟩ := step_exists_next s'
  have hsame := step_sameAnswer s s'.work
  rw [← hs, h, ht'] at hsame
  exact ⟨t', ht', hsame⟩

/-- A run's first step. -/
theorem run_succ_of_step {s t : State} (h : step s = .next t) (k : Nat) : Sys2Proof.core.run (k + 1) s = Sys2Proof.core.run k t := by
  have hcore : Sys2Proof.core.step s = .next t := h
  simp only [Host.Core.run, hcore]

/-- No run stops. -/
theorem run_exists_next (k : Nat) (s : State) : ∃ t : State, Sys2Proof.core.run k s = .next t := by
  induction k generalizing s with
  | zero => exact ⟨s, rfl⟩
  | succ k ih =>
    obtain ⟨t, ht⟩ := step_exists_next s
    rw [run_succ_of_step ht]
    exact ih t

/-- Two states alike to a caller run alike. -/
theorem run_sameAnswer (k : Nat) {s s' : State} (hs : sameToCaller s s') :
    sameAnswer (Sys2Proof.core.run k s) (Sys2Proof.core.run k s') := by
  induction k generalizing s s' with
  | zero => exact hs
  | succ k ih =>
    obtain ⟨t, ht⟩ := step_exists_next s
    obtain ⟨t', ht', hsame⟩ := exists_step_of_sameToCaller hs ht
    rw [run_succ_of_step ht, run_succ_of_step ht']
    exact ih hsame

/-- A frame instruction is its layout shown to the decoder (log 6). -/
theorem exec_frameInstr (c : Byte) (p : List Byte) (ck : Checksum) (s : State) :
    exec (frameInstr c p ck) s = exec (Instr.decodeOp (checksumVariant ck) (layout c p ck)) s := by cases ck <;> rfl

/-- A span from the link is answered by the decoder's outcome on it, bytes beyond the frame and all (41_frame_codec.md R153, log 6). -/
theorem serve_wire (v : Variant) (bytes : List Byte) (s : State) :
    ∃ w : Work, serve (.wire v bytes) s = .next { s with work := w, response := some (decodeOutcome v bytes) } := by
  cases hwire : decodeWire v bytes with
  | error reason =>
    have hdecode : decode (.wire v bytes) = .error reason := by rw [decode, hwire]; rfl
    rw [serve, hdecode, decodeOutcome_of_decodeWire_error hwire]
    exact ⟨s.work, rfl⟩
  | ok x =>
    have hdecode : decode (.wire v bytes) = .ok x.1 := by rw [decode, hwire]; rfl
    obtain ⟨c, p, ck, rfl, hp, hi, rfl⟩ := layout_of_decodeWire (i := x.1) (rest := x.2) hwire
    rw [serve, hdecode, decodeOutcome_layout c hp]
    dsimp only
    rw [hi, exec_frameInstr]
    exact exec_decodeOp_layout c hp ck s

section Invariant

variable {s t : State}

/-- The requests waiting are no part of the invariant. -/
theorem inv_setRequests (h : s.Inv) (q : List Request) : (s.setRequests q).Inv :=
  ⟨h.phase_idle, h.bitcnt_le, h.rxbuf_fits, h.pure_holds_nothing, h.response_sound⟩

/-- The response may be any sound one. -/
theorem inv_of_response (h : s.Inv) {o : Option Response} (ho : ∀ r, o = some r → responseSound r = true) :
    State.Inv { s with response := o } :=
  ⟨h.phase_idle, h.bitcnt_le, h.rxbuf_fits, h.pure_holds_nothing, ho⟩

/-- Every operation keeps the invariant. -/
theorem inv_of_exec {i : Instr} (h : s.Inv) (hexec : exec i s = .next t) : t.Inv := by
  obtain ⟨ht, hrest⟩ := eq_of_exec s hexec
  obtain ⟨hidle, hbit⟩ := hrest ⟨h.phase_idle, h.bitcnt_le⟩
  rw [ht]
  refine ⟨hidle, hbit, rxbufFits_effect h.rxbuf_fits i, fun hp => ?_, fun r hr => ?_⟩
  · exact (effect_buffer_of_pure hp s.rxbuf i).trans (h.pure_holds_nothing hp)
  · obtain rfl := Option.some.inj hr
    exact responseSound_effect s.cfg s.rxbuf i

/-- Serving any request keeps the invariant. -/
theorem inv_of_serve {r : Request} (h : s.Inv) (hserve : serve r s = .next t) : t.Inv := by
  unfold serve at hserve
  split at hserve
  · exact inv_of_exec h hserve
  · obtain rfl := Host.Outcome.next.inj hserve
    exact inv_of_response h fun r hr => Option.some.inj hr ▸ rfl

end Invariant

end Sys2Proof.Machine

open Sys2Proof Sys2Proof.Machine

/-- Settles O48: a step clears the response, or serves a request in the state without it. -/
theorem everyStepKeepsTheInvariant : Obligations.EveryStepKeepsTheInvariant := by
  intro s t hinv hstep
  cases hq : s.requests with
  | nil =>
    obtain rfl := Host.Outcome.next.inj ((step_of_requests_nil hq).symm.trans hstep)
    exact inv_of_response hinv fun r hr => nomatch hr
  | cons r rest => exact inv_of_serve (inv_setRequests hinv rest) ((step_of_requests_cons hq).symm.trans hstep)

/-- Settles O54: no answer depends on the working registers, and every step goes on. -/
theorem everyStepKeepsStatesAlikeToTheCaller : Obligations.EveryStepKeepsStatesAlikeToTheCaller :=
  fun _ _ _ hs h => exists_step_of_sameToCaller hs h

/-- Settles O45. -/
theorem stepServesTheOldestRequest : Obligations.StepServesTheOldestRequest := by
  intro s r rest i hq hdecode
  rw [step_of_requests_cons hq, serve, hdecode]
  rfl

/-- Settles O46: both answer the decoder's outcome. -/
theorem spansFromTheLinkAreAnsweredAsTheDecoderAnswers : Obligations.SpansFromTheLinkAreAnsweredAsTheDecoderAnswers := by
  intro v bytes rest s hq
  obtain ⟨w, hdec⟩ := exec_decodeOp v bytes (s.setRequests rest)
  obtain ⟨w', hserve⟩ := serve_wire v bytes (s.setRequests rest)
  exact ⟨w', _, hdec, (step_of_requests_cons hq).trans hserve⟩

/-- Settles O47: the registers are idle and zero, the buffer is empty, and there is no response. -/
theorem resetMeetsTheInvariant : Obligations.ResetMeetsTheInvariant :=
  fun _ => ⟨rfl, Nat.zero_le 8, rxbufFits_nil, fun _ => rfl, fun _ hr => nomatch hr⟩

/-- Settles O49, by induction on the number of steps. -/
theorem everyRunGoesOn : Obligations.EveryRunGoesOn := run_exists_next

/-- Settles O50, by induction on the number of steps. -/
theorem workingRegistersAreUnobservable : Obligations.WorkingRegistersAreUnobservable := fun k _ _ => run_sameAnswer k rfl

/-- Settles O44: each word's bits, and for the frame words the bytes that follow them. -/
theorem tableWordsDecodeToTheirRows : Obligations.TableWordsDecodeToTheirRows := by
  unfold Obligations.TableWordsDecodeToTheirRows
  decide +kernel

end

section
/-! The owned buffer (43_owned_buffer.md): each buffer operation in profile OWNED, and what a sequence of requests does, one served a
step. -/

namespace Sys2Proof.Machine

section Owned

variable {s : State}

/-- `FEED` in profile OWNED (43_owned_buffer.md R215). -/
theorem exec_feed_owned (h : s.cfg.profile = .owned) (chunk : List Byte) :
    exec (.feed chunk) s =
      if overflows s.cfg.bufcap s.rxbuf.length chunk.length then .next { s with response := some .bufferFull }
      else .next { s with rxbuf := s.rxbuf ++ chunk, response := some (.done .nothing) } := inOwned_owned h _

/-- `TRIM` in profile OWNED (43_owned_buffer.md R216). -/
theorem exec_trim_owned (h : s.cfg.profile = .owned) (k : Nat) :
    exec (.trim k) s =
      if s.rxbuf.length < k then .next { s with response := some .trimRange }
      else .next { s with rxbuf := s.rxbuf.drop k, response := some (.done .nothing) } := inOwned_owned h _

/-- `CLEAR` in profile OWNED (43_owned_buffer.md R220). -/
theorem exec_clear_owned (h : s.cfg.profile = .owned) :
    exec .clear s = .next { s with rxbuf := [], response := some (.done .nothing) } := inOwned_owned h _

/-- `NEXTv` in profile OWNED (43_owned_buffer.md R217). -/
theorem exec_nextOp_owned (h : s.cfg.profile = .owned) (v : Variant) :
    ∃ w : Work, exec (Instr.nextOp v) s = .next { s with
      work := w
      rxbuf := trimOrdered (scan v s.rxbuf) s.rxbuf
      response := some (scan v s.rxbuf) } := by
  rcases runNext_cases v s with ⟨-, w, -, hw⟩ | ⟨hp, -⟩
  · cases v <;> exact ⟨w, hw⟩
  · rw [h] at hp
    cases hp

/-- The same, of a known next state. -/
theorem eq_of_exec_nextOp {t : State} {v : Variant} (h : s.cfg.profile = .owned) (hexec : exec (Instr.nextOp v) s = .next t) :
    t.cfg = s.cfg ∧ t.response = some (scan v s.rxbuf) ∧ t.rxbuf = trimOrdered (scan v s.rxbuf) s.rxbuf := by
  obtain ⟨w, hw⟩ := exec_nextOp_owned h v
  obtain rfl := Host.Outcome.next.inj (hexec.symm.trans hw)
  exact ⟨rfl, rfl, rfl⟩

end Owned

/-- A scan that reports or discards removes at least 4 bytes (42_defragmenter.md R192). -/
theorem trimOrdered_scan_progress (v : Variant) (b : List Byte) :
    scan v b = .needMoreData ∨ (trimOrdered (scan v b) b).length + 4 ≤ b.length := by
  have hfive := five_le_minSize v
  rcases scan_cases v b with h | ⟨i, c, p, rest, -, -, hd, h⟩ | ⟨hmin, h⟩
  · exact .inl h
  · have hlen := length_of_drop_layout hd
    rw [checksumVariant_crc] at hlen
    rw [h, trimOrdered, dropFront, List.length_drop]
    omega
  · rw [h, trimOrdered, dropFront, List.length_drop]
    split <;> omega

/-- After a discard, too little is left to be scanned (43_owned_buffer.md R222). -/
theorem scan_drop_of_noFrameDiscard {v : Variant} {b : List Byte} {n : Nat} (h : scan v b = .noFrameDiscard n) :
    scan v (b.drop n) = .needMoreData := by
  have hfive := five_le_minSize v
  obtain ⟨-, hnil | hone⟩ := drop_of_scan_eq_noFrameDiscard h
  · exact scan_of_lt_minSize (by rw [hnil, List.length_nil]; omega)
  · exact scan_of_lt_minSize (by rw [hone, List.length_singleton]; omega)

section Runs

variable {s : State} {rest : List Request}

/-- A step that serves the request of an instruction executes the instruction. -/
theorem step_of_encode {i : Instr} (hwf : i.wellFormed = true) (hq : s.requests = encode i :: rest) :
    step s = exec i (s.setRequests rest) :=
  stepServesTheOldestRequest s (encode i) rest i hq (decodingAnEncodedInstructionGivesItBack i hwf)

/-- A step that serves `FEED` where every chunk fits. -/
theorem step_feed (howned : s.cfg.profile = .owned) (hcap : s.cfg.bufcap = none) {chunk : List Byte}
    (hq : s.requests = encode (Instr.feedOp chunk) :: rest) :
    ∃ t : State, step s = .next t ∧ t.response = some (.done .nothing) ∧ t.cfg = s.cfg ∧ t.requests = rest ∧
      t.rxbuf = s.rxbuf ++ chunk := by
  have hexec := exec_feed_owned (s := s.setRequests rest) howned chunk
  rw [State.setRequests_cfg, hcap] at hexec
  exact ⟨_, (step_of_encode rfl hq).trans hexec, rfl, rfl, rfl, rfl⟩

/-- A step that serves `NEXTv`. -/
theorem step_nextOp (howned : s.cfg.profile = .owned) {v : Variant} (hq : s.requests = encode (Instr.nextOp v) :: rest) :
    ∃ t : State, step s = .next t ∧ t.response = some (scan v s.rxbuf) ∧ t.cfg = s.cfg ∧ t.requests = rest ∧
      t.rxbuf = trimOrdered (scan v s.rxbuf) s.rxbuf := by
  obtain ⟨w, hexec⟩ := exec_nextOp_owned (s := s.setRequests rest) howned v
  exact ⟨_, (step_of_encode (by cases v <;> rfl) hq).trans hexec, rfl, rfl, rfl, rfl⟩

/-- The responses of a run, the first step's before the others'. -/
theorem collect_succ {k : Nat} {t u : State} {r : Response} {rs : List Response} (hstep : step s = .next t)
    (hr : t.response = some r) (hrest : collect k t = some (rs, u)) : collect (k + 1) s = some (r :: rs, u) := by
  simp only [collect, hstep, hrest, hr]
  rfl

end Runs

/-- Feeding chunks one a step (20_memory.md R57, R62). -/
theorem collect_feeds (chunks : List (List Byte)) {s : State} (howned : s.cfg.profile = .owned) (hcap : s.cfg.bufcap = none)
    (hq : s.requests = chunks.map fun c => encode (Instr.feedOp c)) :
    ∃ t : State, collect chunks.length s = some (List.replicate chunks.length (.done .nothing), t) ∧
      t.rxbuf = s.rxbuf ++ chunks.flatten ∧ t.requests = [] := by
  induction chunks generalizing s with
  | nil => exact ⟨s, rfl, (List.append_nil _).symm, hq⟩
  | cons chunk chunks ih =>
    obtain ⟨t, hstep, hr, hcfg, hreq, hbuf⟩ := step_feed howned hcap hq
    obtain ⟨u, hcollect, hbuf', hreq'⟩ := ih (hcfg ▸ howned) (hcfg ▸ hcap) hreq
    exact ⟨u, collect_succ hstep hr hcollect, by rw [hbuf', hbuf, List.flatten_cons, List.append_assoc], hreq'⟩

/-- The PURE caller's scan and trim (43_owned_buffer.md R211 to R213). -/
theorem callerParse_eq (v : Variant) (block : State) (buf : List Byte) :
    ∃ w : Work, callerParse v block buf =
      some (scan v buf, { block with work := w, response := some (scan v buf) }, trimOrdered (scan v buf) buf) := by
  obtain ⟨w, hw⟩ := exec_scanOp v buf block
  refine ⟨w, ?_⟩
  rw [callerParse, hw]
  rfl

/-- The owner of the buffer and the PURE caller, action by action (43_owned_buffer.md R221). -/
theorem collect_agrees_with_callerRun (v : Variant) (actions : List Action) {owner : State} (other : State)
    (howned : owner.cfg.profile = .owned) (hcap : owner.cfg.bufcap = none) (hq : owner.requests = actions.map (actionRequest v)) :
    ∃ (rs : List Response) (t : State), collect actions.length owner = some (rs, t) ∧
      callerRun v actions other owner.rxbuf = some (rs.filter Response.isScanOutcome, t.rxbuf) := by
  induction actions generalizing owner other with
  | nil => exact ⟨[], owner, rfl, rfl⟩
  | cons action actions ih =>
    cases action with
    | append chunk =>
      obtain ⟨t, hstep, hr, hcfg, hreq, hbuf⟩ := step_feed howned hcap hq
      obtain ⟨rs, u, hcollect, hcaller⟩ := ih other (hcfg ▸ howned) (hcfg ▸ hcap) hreq
      rw [hbuf] at hcaller
      exact ⟨_, u, collect_succ hstep hr hcollect, hcaller⟩
    | parse =>
      obtain ⟨t, hstep, hr, hcfg, hreq, hbuf⟩ := step_nextOp howned hq
      obtain ⟨w, hparse⟩ := callerParse_eq v other owner.rxbuf
      obtain ⟨rs, u, hcollect, hcaller⟩ := ih { other with work := w, response := some (scan v owner.rxbuf) }
        (hcfg ▸ howned) (hcfg ▸ hcap) hreq
      rw [hbuf] at hcaller
      refine ⟨_, u, collect_succ hstep hr hcollect, ?_⟩
      rw [callerRun, hparse, List.filter_cons_of_pos (scan_isScanOutcome v owner.rxbuf), Option.bind_some, hcaller]
      rfl

/-- A frame at the front of the buffer is found and removed (43_owned_buffer.md R217). -/
theorem scan_frameBytes_append (v : Variant) (c : Byte) {p : List Byte} (hp : p.length ≤ 255) (rest : List Byte) :
    scan v (frameBytes v c p ++ rest) = .frameFound (frameOf v c p) (minSize v + p.length) ∧
      trimOrdered (scan v (frameBytes v c p ++ rest)) (frameBytes v c p ++ rest) = rest := by
  have hfound := scan_of_frameBytes (i := 0) hp (List.drop_zero (l := frameBytes v c p ++ rest))
    fun j hj => absurd hj (Nat.not_lt_zero j)
  rw [Nat.zero_add] at hfound
  exact ⟨hfound, by rw [hfound]; exact List.drop_left' (frameBytes_length v c p)⟩

/-- Frames one behind the other, delivered one a step (92_eei_decisions.md D29). -/
theorem collect_frames (v : Variant) (frames : List (Byte × List Byte)) {rest : List Byte} {s : State}
    (howned : s.cfg.profile = .owned) (hfits : ∀ x ∈ frames, x.2.length ≤ 255) (hrest : rest.length < minSize v)
    (hbuf : s.rxbuf = frames.flatMap (fun x => frameBytes v x.1 x.2) ++ rest)
    (hq : s.requests = List.replicate (frames.length + 1) (encode (Instr.nextOp v))) :
    ∃ t : State, t.rxbuf = rest ∧ collect (frames.length + 1) s =
      some (frames.map (fun x => .frameFound (frameOf v x.1 x.2) (minSize v + x.2.length)) ++ [.needMoreData], t) := by
  induction frames generalizing s with
  | nil =>
    obtain ⟨t, hstep, hr, -, -, htrim⟩ := step_nextOp howned hq
    have hscan : scan v s.rxbuf = .needMoreData := scan_of_lt_minSize (hbuf ▸ hrest)
    rw [hscan] at hr htrim
    exact ⟨t, htrim.trans hbuf, collect_succ hstep hr rfl⟩
  | cons x frames ih =>
    obtain ⟨t, hstep, hr, hcfg, hreq, htrim⟩ := step_nextOp howned hq
    rw [List.flatMap_cons, List.append_assoc] at hbuf
    obtain ⟨hfound, hrest'⟩ := scan_frameBytes_append v x.1 (hfits x List.mem_cons_self)
      (frames.flatMap (fun x => frameBytes v x.1 x.2) ++ rest)
    rw [hbuf, hrest'] at htrim
    rw [hbuf, hfound] at hr
    obtain ⟨u, hleft, hcollect⟩ := ih (hcfg ▸ howned) (fun y hy => hfits y (List.mem_cons_of_mem x hy)) htrim hreq
    exact ⟨u, hleft, collect_succ hstep hr hcollect⟩

/-- What the consumer is delivered of those responses (20_memory.md R63). -/
theorem filterMap_delivered (v : Variant) (frames : List (Byte × List Byte)) :
    (frames.map (fun x : Byte × List Byte => Response.frameFound (frameOf v x.1 x.2) (minSize v + x.2.length)) ++
      [Response.needMoreData]).filterMap delivered = frames := by
  induction frames with
  | nil => rfl
  | cons x frames ih =>
    rw [List.map_cons, List.cons_append, List.filterMap_cons, ih]
    rfl

/-- `k + 1` requests drain a buffer of fewer than `4 (k + 1)` bytes: each removes 4 bytes or finds that more data is needed, and then
so do all after it (43_owned_buffer.md R214). -/
theorem collect_drains (v : Variant) (k : Nat) {s : State} (howned : s.cfg.profile = .owned)
    (hbuf : scan v s.rxbuf = .needMoreData ∨ s.rxbuf.length < 4 * (k + 1))
    (hq : s.requests = List.replicate (k + 1) (encode (Instr.nextOp v))) :
    ∃ (rs : List Response) (t : State), collect (k + 1) s = some (rs, t) ∧ rs.length = k + 1 ∧
      rs.getLast? = some .needMoreData ∧ scan v t.rxbuf = .needMoreData := by
  induction k generalizing s with
  | zero =>
    have hfive := five_le_minSize v
    obtain ⟨t, hstep, hr, -, -, htrim⟩ := step_nextOp howned hq
    have hscan : scan v s.rxbuf = .needMoreData := hbuf.elim id fun hshort => scan_of_lt_minSize (by omega)
    rw [hscan] at hr htrim
    exact ⟨_, t, collect_succ hstep hr rfl, rfl, rfl, (congrArg (scan v) htrim).trans hscan⟩
  | succ k ih =>
    obtain ⟨t, hstep, hr, hcfg, hreq, htrim⟩ := step_nextOp howned hq
    have hbuf' : scan v t.rxbuf = .needMoreData ∨ t.rxbuf.length < 4 * (k + 1) := by
      by_cases hneed : scan v s.rxbuf = .needMoreData
      · exact .inl (by rw [htrim, hneed]; exact hneed)
      · have hshort := hbuf.resolve_left hneed
        have hprogress := (trimOrdered_scan_progress v s.rxbuf).resolve_left hneed
        exact .inr (by rw [htrim]; omega)
    obtain ⟨rs, u, hcollect, hlen, hlast, hleft⟩ := ih (hcfg ▸ howned) hbuf' hreq
    refine ⟨_, u, collect_succ hstep hr hcollect, by rw [List.length_cons, hlen], ?_, hleft⟩
    rw [List.getLast?_cons, hlast]
    rfl

end Sys2Proof.Machine

open Sys2Proof Sys2Proof.Machine

/-- Settles O32: the bound of `FEED` is `overflows`. -/
theorem feedAppendsTheChunkOrRefusesItWhole : Obligations.FeedAppendsTheChunkOrRefusesItWhole := by
  refine fun chunk s howned => ⟨fun hfits => ?_, fun cap hcap hfull => ?_⟩
  · have hroom : overflows s.cfg.bufcap s.rxbuf.length chunk.length = false := by
      cases hcap : s.cfg.bufcap with
      | none => rfl
      | some cap => exact decide_eq_false (Nat.not_lt.mpr (hfits cap hcap))
    rw [exec_feed_owned howned, hroom]
    rfl
  · rw [exec_feed_owned howned, hcap]
    exact if_pos (decide_eq_true hfull)

/-- Settles O33: the bound of `TRIM`, and `CLEAR` at the bound. -/
theorem trimAndClearRemoveLeadingBytes : Obligations.TrimAndClearRemoveLeadingBytes := by
  intro k s howned
  refine ⟨fun hk => ?_, fun hk => ?_, exec_clear_owned howned, ?_⟩
  · rw [exec_trim_owned howned, if_neg (Nat.not_lt.mpr hk)]
  · rw [exec_trim_owned howned, if_pos hk]
  · rw [exec_clear_owned howned, exec_trim_owned howned, if_neg (Nat.lt_irrefl _), List.drop_length]

/-- Settles O37: the reserved codes raise `IllegalOp`, and so does `inOwned` in profile PURE. -/
theorem illegalRequestsChangeNothing : Obligations.IllegalRequestsChangeNothing := by
  refine fun s => ⟨⟨rfl, rfl, rfl⟩, fun hpure chunk k i hi => ?_⟩
  simp only [List.mem_cons, List.not_mem_nil, or_false] at hi
  rcases hi with rfl | rfl | rfl | rfl | rfl <;> exact inOwned_pure hpure _

/-- Settles O34: `NEXTv` by the three outcomes of a scan. -/
theorem nextScansAndTrimsAsOrdered : Obligations.NextScansAndTrimsAsOrdered := by
  refine fun s howned => ⟨?_, ?_⟩
  · obtain ⟨w, hw⟩ := exec_nextOp_owned howned .v8
    refine ⟨w, hw.trans ?_⟩
    generalize scan .v8 s.rxbuf = r
    cases r <;> rfl
  · obtain ⟨w, hw⟩ := exec_nextOp_owned howned .v16
    refine ⟨w, hw.trans ?_⟩
    generalize scan .v16 s.rxbuf = r
    cases r <;> rfl

/-- Settles O35: by the three ways a scan can end. -/
theorem outcomesOtherThanNeedMoreDataMakeProgress : Obligations.OutcomesOtherThanNeedMoreDataMakeProgress := by
  intro v s t howned hexec
  obtain ⟨-, hr, hb⟩ := eq_of_exec_nextOp howned hexec
  rcases scan_cases v s.rxbuf with h | ⟨i, c, p, rest, -, -, hd, h⟩ | ⟨-, h⟩ <;> rw [h] at hr hb
  · exact .inl ⟨hr, hb⟩
  · have hlen := length_of_drop_layout hd
    have hfive := five_le_minSize v
    rw [checksumVariant_crc] at hlen
    exact .inr (.inl ⟨_, _, hr, by omega, by omega, hb⟩)
  · obtain ⟨hmin, hleft⟩ := drop_of_scan_eq_noFrameDiscard h
    refine .inr (.inr ⟨_, hr, hmin, ?_, hb ▸ hleft⟩)
    rw [hb]
    exact (List.take_append_drop _ _).symm

/-- Settles O36: what a discard leaves is too short to be scanned. -/
theorem afterADiscardMoreDataIsNeeded : Obligations.AfterADiscardMoreDataIsNeeded := by
  intro v s t n howned hexec hdiscard
  obtain ⟨hcfg, hr, hb⟩ := eq_of_exec_nextOp howned hexec
  have hscan : scan v s.rxbuf = .noFrameDiscard n := Option.some.inj (hr.symm.trans hdiscard)
  have hneed : scan v t.rxbuf = .needMoreData := by
    rw [hb, hscan]
    exact scan_drop_of_noFrameDiscard hscan
  obtain ⟨w, hw⟩ := exec_nextOp_owned (s := t) (hcfg ▸ howned) v
  rw [hneed] at hw
  exact ⟨w, hw⟩

/-- Settles O38, by induction on the chunks. -/
theorem chunksAccumulateInOrder : Obligations.ChunksAccumulateInOrder := by
  intro chunks s howned hcap hq
  obtain ⟨t, hcollect, hbuf, hreq⟩ := collect_feeds chunks howned hcap hq
  exact ⟨_, t, hcollect, hbuf, rfl, hreq⟩

/-- Settles O39, by induction on the actions. -/
theorem ownedBlockAndPureCallerAgree : Obligations.OwnedBlockAndPureCallerAgree :=
  fun v actions _ other howned hcap hq _ => collect_agrees_with_callerRun v actions other howned hcap hq

/-- Settles O40, by induction on the frames. -/
theorem framesAreDeliveredInWireOrder : Obligations.FramesAreDeliveredInWireOrder := by
  intro v frames rest s howned hfits hrest hbuf hq
  obtain ⟨t, hleft, hcollect⟩ := collect_frames v frames howned hfits hrest hbuf hq
  exact ⟨_, t, hcollect, rfl, filterMap_delivered v frames, hleft⟩

/-- Settles O41: a quarter of the length, and one, is enough. -/
theorem drainingReachesNeedMoreData : Obligations.DrainingReachesNeedMoreData :=
  fun v s howned hq => collect_drains v (s.rxbuf.length / 4) howned (.inr (by omega)) hq

end
